-- ==== Sys2Proof/Word.lean ====
section
/-! DEFINITION. The widths of the values the block stores or sends. -/

namespace Sys2Proof

/-- A byte, a cell index, a topology entry, a seed entry, the X field: 8 bits (R14, R24). -/
abbrev Byte := BitVec 8

/-- A command word, and FAULT_INFO: 16 bits (R40, R66). -/
abbrev Word := BitVec 16

/-- A response word: 24 bits (R42, R74). -/
abbrev Rsp := BitVec 24

end Sys2Proof
end

