-- ==== Sys2Proof/Syntax.lean ====
section
/-! DEFINITION. The ten commands of the opcode map (R69), and the assembler's lines (R72, R73). -/

namespace Sys2Proof

/-- A command, one constructor per row of the opcode table (R69). `x` is the X field (bits 7:0),
`a` the A field (bits 11:8) (R67). -/
inductive Instr
  | nop
  | clear
  | set (x : Byte) (a : BitVec 4)
  | get (x : Byte)
  | loadSeed
  | advance
  | color (x : Byte)
  | render
  | renderFill (x : Byte)
  | status
deriving DecidableEq, Repr

/-- The mnemonic of a command's row (R69). -/
def Instr.mnemonic : Instr → String
  | .nop => "NOP"
  | .clear => "CLEAR"
  | .set _ _ => "SET"
  | .get _ => "GET"
  | .loadSeed => "LOAD_SEED"
  | .advance => "ADVANCE"
  | .color _ => "COLOR"
  | .render => "RENDER"
  | .renderFill _ => "RENDER_FILL"
  | .status => "STATUS"

/-- One assembler line with its numbers as written (R72), the pseudo-commands `SEED x` and `KILL x`
among them (R73). -/
inductive AsmCmd
  | nop
  | clear
  | set (x a : Nat)
  | get (x : Nat)
  | loadSeed
  | advance
  | color (v : Nat)
  | render
  | renderFill (v : Nat)
  | status
  | seedCell (x : Nat)
  | killCell (x : Nat)
deriving DecidableEq, Repr

end Sys2Proof
end

