-- ==== Sys2Proof/Decode.lean ====
section
/-! DEFINITION. The command encoding (R66 to R71): decode, total on every 16-bit word, the encoder,
and the opcode map as match and mask rows. -/

namespace Sys2Proof

/-- Why a word is illegal (R70), in the order the block detects it (R98): a reserved OP, then a bit
that must be 0. -/
inductive Illegal
  | reservedOpcode
  | mustBeZero
deriving DecidableEq, Repr

/-- OP = cmd[15:12] (R67). -/
def opField (w : Word) : BitVec 4 := w.extractLsb' 12 4

/-- A = cmd[11:8] (R67). -/
def aField (w : Word) : BitVec 4 := w.extractLsb' 8 4

/-- X = cmd[7:0] (R67). -/
def xField (w : Word) : Byte := w.extractLsb' 0 8

/-- A row with no operand: legal only when cmd[11:0] is 0 (R71). -/
def decodeBare (i : Instr) (w : Word) : Except Illegal Instr :=
  if aField w = 0 ∧ xField w = 0 then .ok i else .error .mustBeZero

/-- A row with operand X alone: legal only when A is 0 (R71). -/
def decodeX (i : Byte → Instr) (w : Word) : Except Illegal Instr :=
  if aField w = 0 then .ok (i (xField w)) else .error .mustBeZero

/-- The decoder of R71, total on any word. -/
def decode (w : Word) : Except Illegal Instr :=
  match (opField w).toNat with
  | 0x0 => decodeBare .nop w
  | 0x1 => decodeBare .clear w
  | 0x2 => .ok (.set (xField w) (aField w))
  | 0x3 => decodeX .get w
  | 0x4 => decodeBare .loadSeed w
  | 0x5 => decodeBare .advance w
  | 0x6 => decodeX .color w
  | 0x7 => decodeBare .render w
  | 0x8 => decodeX .renderFill w
  | 0x9 => decodeBare .status w
  | _ => .error .reservedOpcode

/-- Assembles the three fields of a word (R67). -/
def packWord (op : BitVec 4) (a : BitVec 4) (x : Byte) : Word := op ++ a ++ x

/-- The word of a command, from the `encoding` column of R69. -/
def encode : Instr → Word
  | .nop => packWord 0x0 0 0
  | .clear => packWord 0x1 0 0
  | .set x a => packWord 0x2 a x
  | .get x => packWord 0x3 0 x
  | .loadSeed => packWord 0x4 0 0
  | .advance => packWord 0x5 0 0
  | .color x => packWord 0x6 0 x
  | .render => packWord 0x7 0 0
  | .renderFill x => packWord 0x8 0 x
  | .status => packWord 0x9 0 0

/-- One row of the opcode map: the bits `maskBits` selects must equal `matchBits` (R69). -/
structure OpcodeRow where
  mnemonic : String
  matchBits : Word
  maskBits : Word
deriving DecidableEq, Repr

/-- "A word matches a row when (cmd & mask) == match" (R69). -/
def OpcodeRow.accepts (r : OpcodeRow) (w : Word) : Bool := w &&& r.maskBits == r.matchBits

/-- The opcode map's match and mask columns (R69). -/
def opcodeRows : List OpcodeRow :=
  [ { mnemonic := "NOP", matchBits := 0x0000, maskBits := 0xFFFF },
    { mnemonic := "CLEAR", matchBits := 0x1000, maskBits := 0xFFFF },
    { mnemonic := "SET", matchBits := 0x2000, maskBits := 0xF000 },
    { mnemonic := "GET", matchBits := 0x3000, maskBits := 0xFF00 },
    { mnemonic := "LOAD_SEED", matchBits := 0x4000, maskBits := 0xFFFF },
    { mnemonic := "ADVANCE", matchBits := 0x5000, maskBits := 0xFFFF },
    { mnemonic := "COLOR", matchBits := 0x6000, maskBits := 0xFF00 },
    { mnemonic := "RENDER", matchBits := 0x7000, maskBits := 0xFFFF },
    { mnemonic := "RENDER_FILL", matchBits := 0x8000, maskBits := 0xFF00 },
    { mnemonic := "STATUS", matchBits := 0x9000, maskBits := 0xFFFF } ]

/-- The command the decoder reads from a word given as a number of `nbits` bits, the bits above
them 0. A command is one 16-bit word (R66). -/
def decodeTableWord (nbits w : Nat) : Option Instr :=
  if nbits ≤ 16 then (decode (BitVec.ofNat 16 (w % 2 ^ nbits))).toOption else none

end Sys2Proof
end

