-- ==== Sys2Proof/Config.lean ====
section
/-! DEFINITION. The configuration inputs of the block (R9 to R20), constant while it runs
(R41, R116), and the free values: the OPEN parameters and the content of the store after reset. -/

namespace Sys2Proof

/-- A colour triple of bytes (R17). -/
structure Colour where
  r : Byte
  g : Byte
  b : Byte
deriving DecidableEq, Repr, Inhabited

/-- One colour channel (R19). -/
inductive Channel
  | red | green | blue
deriving DecidableEq, Repr, Inhabited

/-- CHANNEL_ORDER: the permutations of (R, G, B), first wire byte first (R19). -/
inductive ChannelOrder
  | rgb | rbg | grb | gbr | brg | bgr
deriving DecidableEq, Repr, Inhabited

/-- BPV, the bits of one age value: it divides 8 (R12). -/
inductive Bpv
  | one | two | four | eight
deriving DecidableEq, Repr, Inhabited

/-- The configuration inputs (R9 to R20, R44 to R46). P is the length of `palette`, SEED_LEN the
length of `seed`. -/
structure Config where
  /-- N (R9) -/
  cells : Nat
  /-- RINGS, read by no operation (R10) -/
  rings : Nat
  /-- K (R11) -/
  slots : Nat
  /-- BPV (R12) -/
  bpv : Bpv
  /-- PALETTE (R17) -/
  palette : List Colour
  /-- BRIGHTNESS5 (R18) -/
  brightness : BitVec 5
  /-- CHANNEL_ORDER (R19) -/
  order : ChannelOrder
  /-- TOPOLOGY: the K entries of cell 0, of cell 1, ... (R44) -/
  topology : List (List Byte)
  /-- SEED (R20, R46) -/
  seed : List Byte
deriving DecidableEq, Repr

/-- Free value: byte `k` of buffer `b` in the store content that reset number `draw` leaves.
"a model must treat every byte as an arbitrary value" (R36, R111; log 3). -/
opaque Config.freeByte : (draw b k : Nat) → Byte

/-- Free values: the OPEN parameters of the hardware that is reset (R16 to R20; log 2). P is 4 and
up to 252 more entries, SEED_LEN is 1 and up to 255 more. -/
opaque Config.openExtraColours : Fin 253
opaque Config.openColour : Nat → Colour
opaque Config.openBrightness : BitVec 5
opaque Config.openOrder : ChannelOrder
opaque Config.openTopo : (cell slot : Nat) → Byte
opaque Config.openExtraSeeds : Fin 256
opaque Config.openSeed : Nat → Byte

/-- The configuration of `State.reset`: the reference values of R9 to R12 where the document gives
one, and free values for the OPEN parameters (log 2). -/
def Config.reference : Config where
  cells := 255
  rings := 10
  slots := 6
  bpv := .two
  palette := (List.range (Config.openExtraColours.val + 4)).map Config.openColour
  brightness := Config.openBrightness
  order := Config.openOrder
  topology := (List.range 255).map fun c => (List.range 6).map (Config.openTopo c)
  seed := (List.range (Config.openExtraSeeds.val + 1)).map Config.openSeed

end Sys2Proof
end

