-- ==== Sys2Proof/Machine/Params.lean ====
section
/-! DEFINITION. What follows from the configuration: the derived parameters (R12, R13, R21, R22)
and the read ports (R28, R44). -/

namespace Sys2Proof

/-- SENTINEL, the end of a neighbour list (R15). -/
def sentinel : Byte := 0xFF#8

/-- BPV as a number (R12). -/
def Bpv.bits : Bpv → Nat
  | .one => 1
  | .two => 2
  | .four => 4
  | .eight => 8

/-- MAX_AGE = 2^BPV - 1 (R12). -/
def Config.maxAge (c : Config) : Nat := 2 ^ c.bpv.bits - 1

/-- VPB = 8 / BPV, the age values of one byte (R13). -/
def Config.valuesPerByte (c : Config) : Nat := 8 / c.bpv.bits

/-- STORE_BYTES = ceil(N * BPV / 8), the bytes of one buffer (R13). -/
def Config.storeBytes (c : Config) : Nat := (c.cells * c.bpv.bits + 7) / 8

/-- FLUSH_BYTES = ceil(N / 16) + 1 (R21, R89). -/
def Config.flushBytes (c : Config) : Nat := (c.cells + 15) / 16 + 1

/-- FRAME_BYTES = 4 + 4 * N + FLUSH_BYTES (R22). -/
def Config.frameBytes (c : Config) : Nat := 4 + 4 * c.cells + c.flushBytes

/-- The mask of one packed age, 2^BPV - 1 (R49). -/
def Config.ageMask (c : Config) : Byte := BitVec.ofNat 8 (2 ^ c.bpv.bits - 1)

/-- The topology read port Topo(c, j) (R28, R44). An entry the table does not list reads as
SENTINEL; a legal table lists them all (log 11). -/
def Config.topo (c : Config) (cell slot : Nat) : Byte :=
  (c.topology.getD cell []).getD slot sentinel

/-- The K slots of a cell, in the order a scan reads them (R79). -/
def Config.topoSlots (c : Config) (cell : Nat) : List Byte :=
  (List.range c.slots).map (c.topo cell)

/-- CHANNEL_ORDER[0], [1] and [2] (R19, R88). -/
def ChannelOrder.channels : ChannelOrder → List Channel
  | .rgb => [.red, .green, .blue]
  | .rbg => [.red, .blue, .green]
  | .grb => [.green, .red, .blue]
  | .gbr => [.green, .blue, .red]
  | .brg => [.blue, .red, .green]
  | .bgr => [.blue, .green, .red]

/-- The component of a colour that a channel names (R88). -/
def Colour.channel (col : Colour) : Channel → Byte
  | .red => col.r
  | .green => col.g
  | .blue => col.b

end Sys2Proof
end

