-- ==== Sys2Proof/Machine/Memory.lean ====
section
/-! DEFINITION. One store buffer as plain data in one canonical form, with its one-byte primitives
(R27, R36), and the packed accessors `get` and `set` over it (R49 to R51). -/

namespace Sys2Proof.Machine

/-- One buffer: its bytes by byte index, in the canonical form of `Memory.wf`. -/
abbrev Memory := List Host.Cell

/-- What an unlisted byte reads as (log 4): a convention of the representation, not a reset value. -/
def Memory.unlisted : Byte := 0

/-- `MemRead(B, k, 1)` (R27). -/
def Memory.read : Memory → Nat → Byte
  | [], _ => Memory.unlisted
  | (a, v) :: rest, k => if a = k then v else Memory.read rest k

/-- Lists byte `k` before `rest`, unless it holds what an unlisted byte reads as. -/
def Memory.put (k : Nat) (v : Byte) (rest : Memory) : Memory :=
  if v = Memory.unlisted then rest else (k, v) :: rest

/-- `MemWrite(B, k, 1, v)` (R27), keeping the canonical form. -/
def Memory.write : Memory → Nat → Byte → Memory
  | [], k, v => Memory.put k v []
  | (a, b) :: rest, k, v =>
    if k < a then Memory.put k v ((a, b) :: rest)
    else if k = a then Memory.put k v rest
    else (a, b) :: Memory.write rest k v

/-- Writes `f k` to every byte `k < n`, in rising order: the loops of CLEAR (R75) and of ADVANCE's
initializing copy (R81). -/
def Memory.fill (m : Memory) (n : Nat) (f : Nat → Byte) : Memory :=
  (List.range n).foldl (fun acc k => Memory.write acc k (f k)) m

/-- The buffer whose byte `k` is `f k` for `k < n`. -/
def Memory.ofBytes (n : Nat) (f : Nat → Byte) : Memory := Memory.fill [] n f

/-- Addresses strictly rising, from `low` on. -/
def Memory.rising (low : Nat) : Memory → Bool
  | [] => true
  | (a, _) :: rest => decide (low ≤ a) && Memory.rising (a + 1) rest

/-- The canonical form of a buffer of `n` bytes: addresses strictly rising and below `n`, no entry
equal to what an unlisted byte reads as. -/
def Memory.wf (n : Nat) (m : Memory) : Bool :=
  Memory.rising 0 m && m.all (fun c => decide (c.1 < n) && decide (c.2 ≠ Memory.unlisted))

/-- The byte that holds cell `idx` (R49). -/
def byteIndex (c : Config) (idx : Nat) : Nat := idx / c.valuesPerByte

/-- The bit offset of cell `idx` in its byte (R49, R51). -/
def bitShift (c : Config) (idx : Nat) : Nat := idx % c.valuesPerByte * c.bpv.bits

/-- The age packed in a byte at a bit offset (R49). -/
def unpackAge (c : Config) (byte : Byte) (shift : Nat) : Byte := byte >>> shift &&& c.ageMask

/-- A byte with the age at a bit offset replaced by `v` masked to BPV bits (R50). -/
def packAge (c : Config) (byte : Byte) (shift : Nat) (v : Byte) : Byte :=
  byte &&& ~~~(c.ageMask <<< shift) ||| (v &&& c.ageMask) <<< shift

/-- `get(B, idx)` (R49). -/
def getCell (c : Config) (m : Memory) (idx : Nat) : Byte :=
  unpackAge c (m.read (byteIndex c idx)) (bitShift c idx)

/-- `set(B, idx, v)` (R50). -/
def setCell (c : Config) (m : Memory) (idx : Nat) (v : Byte) : Memory :=
  m.write (byteIndex c idx) (packAge c (m.read (byteIndex c idx)) (bitShift c idx) v)

end Sys2Proof.Machine
end

