-- ==== Sys2Proof/Machine/State.lean ====
section
/-! DEFINITION. The state of the block (R33 to R48), what stands outside its ports, and the state
right after reset (R109). -/

namespace Sys2Proof.Machine

/-- The two store buffers (R36). -/
inductive Buf
  | b0 | b1
deriving DecidableEq, Repr

/-- The fault causes a command can raise (R95). Code 0 is no fault; codes 6 and 7 are never
raised. -/
inductive FaultCode
  | illegalCommand
  | indexRange
  | topologyEntry
  | seedRange
  | seedUnterminated
deriving DecidableEq, Repr

/-- One transfer the block still has to make: a word on the response port (R42) or a byte on the
byte-output port (R43). -/
inductive Transfer
  | response (w : Rsp)
  | byte (b : Byte)
deriving DecidableEq, Repr

/-- A command in progress (R47) and the transfers it still has to make, oldest first (log 5). -/
structure InProgress where
  cmd : Instr
  waiting : List Transfer
deriving DecidableEq, Repr

/-- What the outside does at one step: the reset input (R110), and whether the response receiver
(R42) and the byte sink (R43) accept (log 6). -/
structure Pins where
  reset : Bool
  rspAccept : Bool
  txAccept : Bool
deriving DecidableEq, Repr

/-- What the outside does at the coming steps, one entry a step, and what it does at every step
after those (log 6). -/
structure Outside where
  script : List Pins
  after : Pins
deriving DecidableEq, Repr

/-- A store pass of LOAD_SEED or ADVANCE: it ends with the buffer written, or stops at a fault that
leaves the buffer partly written (R97). -/
inductive Pass
  | done (m : Memory)
  | stopped (m : Memory) (code : FaultCode) (info : Word)
deriving DecidableEq, Repr

/-- The state. `config` to `busy` are the block's; the other fields are the model's own: what stands
outside the ports, and the counter of the free store contents. -/
structure State where
  /-- the configuration inputs, which no step changes (R41, R116; log 1) -/
  config : Config
  /-- buffer B0 (R36) -/
  b0 : Memory
  /-- buffer B1 (R36) -/
  b1 : Memory
  /-- ACTIVE: the current buffer (R37) -/
  active : Buf
  /-- FAULTED (R40) -/
  faulted : Bool
  /-- FAULT_CODE (R40) -/
  faultCode : BitVec 3
  /-- FAULT_INFO (R40) -/
  faultInfo : Word
  /-- the command in progress, with its pending transfers (R42, R43, R47) -/
  busy : Option InProgress
  /-- the words the host has still to send, oldest first (R47; log 7) -/
  cmds : List Word
  /-- what the outside does at the coming steps (log 6) -/
  outside : Outside
  /-- the response words accepted since the last reset, oldest first (R42, R120; log 8) -/
  responses : List Rsp
  /-- the bytes accepted since the last reset, oldest first (R43, R120; log 8) -/
  emitted : List Byte
  /-- the response words accepted before the last reset, oldest first (R110; log 8) -/
  pastResponses : List Rsp
  /-- the bytes accepted before the last reset, oldest first (R110; log 8) -/
  pastEmitted : List Byte
  /-- how many store contents resets have drawn (R111; log 3) -/
  draws : Nat
deriving DecidableEq, Repr

/-- Reasons for which the machine stops. There is none: every fault of the spec is a next state with
FAULTED set (R96), and a command that waits keeps its state (R108, R117) (log 16). -/
inductive Fault
deriving DecidableEq, Repr

/-- Reasons for which the model gives a step no meaning. -/
inductive Refusal
  /-- Raised by an arm of `exec` for a command that has no meaning yet; no arm raises it. Safe: the
  model stops where the block goes on. -/
  | notModelled (mnemonic : String)
deriving DecidableEq, Repr

/-- The bit that stands for a buffer in ACTIVE (R37). -/
def Buf.bit : Buf → BitVec 1
  | .b0 => 0
  | .b1 => 1

/-- The content of buffer `b` after reset number `draw`: every byte a free value (R36, R109, R111;
log 3). -/
def drawnBuffer (c : Config) (draw : Nat) (b : Buf) : Memory :=
  Memory.ofBytes c.storeBytes (Config.freeByte draw b.bit.toNat)

/-- The outside of `State.reset`: reset low, and both receivers accepting (log 6). -/
def Outside.accepting : Outside :=
  { script := [], after := { reset := false, rspAccept := true, txAccept := true } }

/-- The machine right after reset (R109), with no word sent yet. -/
def State.reset : State where
  config := Config.reference
  b0 := drawnBuffer Config.reference 0 .b0
  b1 := drawnBuffer Config.reference 0 .b1
  active := .b0
  faulted := false
  faultCode := 0
  faultInfo := 0
  busy := none
  cmds := []
  outside := Outside.accepting
  responses := []
  emitted := []
  pastResponses := []
  pastEmitted := []
  draws := 1

end Sys2Proof.Machine
end

