-- ==== Sys2Proof/Machine/Ops.lean ====
section
/-! DEFINITION. The named operations over the store, the ports and the fault status that the
commands share. -/

namespace Sys2Proof.Machine

/-- What every meaning answers. -/
abbrev Result := Host.Outcome State Fault Refusal

/-- `1 - B`: the other buffer (R30, R37). -/
def Buf.other : Buf → Buf
  | .b0 => .b1
  | .b1 => .b0

/-- The content of a buffer. -/
def State.mem (s : State) : Buf → Memory
  | .b0 => s.b0
  | .b1 => s.b1

/-- The state with the content of a buffer replaced. -/
def State.setMem (s : State) : Buf → Memory → State
  | .b0, m => { s with b0 := m }
  | .b1, m => { s with b1 := m }

/-- The current buffer, `cur` (R30). -/
def State.cur (s : State) : Memory := s.mem s.active

/-- The age of cell `idx` of the current buffer. -/
def State.age (s : State) (idx : Nat) : Byte := getCell s.config s.cur idx

/-- FAULT_CODE's three bits (R95). -/
def FaultCode.bits : FaultCode → BitVec 3
  | .illegalCommand => 1
  | .indexRange => 2
  | .topologyEntry => 3
  | .seedRange => 4
  | .seedUnterminated => 5

/-- `raise Fault(code, info)`: taking a fault (R29, R40, R96). Only the first fault since reset is
recorded. The command that raised it ends here; there is no vector, no saved program counter and no
mode to change. -/
def State.raiseFault (s : State) (code : FaultCode) (info : Word) : State :=
  if s.faulted then s
  else { s with faulted := true, faultCode := code.bits, faultInfo := info }

/-- Every response word accepted so far, oldest first: "bytes already emitted stay emitted", and so
do responses (R110). -/
def State.allResponses (s : State) : List Rsp := s.pastResponses ++ s.responses

/-- Every byte accepted so far, oldest first (R110). -/
def State.allEmitted (s : State) : List Byte := s.pastEmitted ++ s.emitted

/-- The reset input: the only way out of the faulted state (R100, R109, R110). The command in
progress and its pending transfers are abandoned, the store takes a new free content (I24; log 3).
What was accepted before stays accepted, as output of the run that ends here; a new run begins
(R120). The host's words and the configuration stand. -/
def State.applyReset (s : State) : State :=
  { s with
    b0 := drawnBuffer s.config s.draws .b0
    b1 := drawnBuffer s.config s.draws .b1
    active := .b0
    faulted := false
    faultCode := 0
    faultInfo := 0
    busy := none
    responses := []
    emitted := []
    pastResponses := s.allResponses
    pastEmitted := s.allEmitted
    draws := s.draws + 1 }

/-- A command other than STATUS: while FAULTED = 1 its word is discarded (R99; log 10). -/
def unlessFaulted (f : State → State) (s : State) : Result :=
  .next (if s.faulted then s else f s)

/-- `Respond(w)` or a run of `Emit(b)`: the command stays in progress until the receivers have
accepted its transfers (R28, R42, R43, R47; log 5). -/
def State.startTransfers (s : State) (cmd : Instr) (ts : List Transfer) : State :=
  { s with busy := some { cmd := cmd, waiting := ts } }

/-- Ends a store pass over buffer `b`: what it wrote stays; a pass that stopped raises its fault
(R97), a pass that ended leaves `b` current. -/
def State.finishPass (s : State) (b : Buf) : Pass → State
  | .done m => { s.setMem b m with active := b }
  | .stopped m code info => (s.setMem b m).raiseFault code info

end Sys2Proof.Machine
end

