-- ==== Sys2Proof/Machine/Flags.lean ====
section
/-! DEFINITION. The block has one flag, FAULTED (R35). The levels and the word that show the fault
status, ACTIVE and the command in progress. -/

namespace Sys2Proof.Machine

/-- The FAULT output, equal to FAULTED (R48). -/
def State.faultOutput (s : State) : Bool := s.faulted

/-- cmd_ready: the port takes a word only when no command is in progress (R47). -/
def State.cmdReady (s : State) : Bool := s.busy.isNone

/-- The status word `{FAULT_INFO, 000, ACTIVE, FAULT_CODE, FAULTED}` (R41, R93). -/
def State.statusWord (s : State) : Rsp :=
  s.faultInfo ++ 0#3 ++ s.active.bit ++ s.faultCode ++ BitVec.ofBool s.faulted

end Sys2Proof.Machine
end

