-- ==== Sys2Proof/Machine/Control.lean ====
section
/-! DEFINITION. The control commands: NOP (R92) and STATUS (R93). -/

namespace Sys2Proof.Machine

/-- NOP: nothing (R92). -/
def execNop (s : State) : Result := unlessFaulted (fun s => s) s

/-- STATUS: reports the status word, also while FAULTED = 1 (R93, R99). -/
def execStatus (s : State) : Result :=
  .next (s.startTransfers .status [.response s.statusWord])

end Sys2Proof.Machine
end

