-- ==== Sys2Proof/Machine/Operands.lean ====
section
/-! DEFINITION. Operand assembly (R68), the information word of a fault (R95) and the response words
(R74). -/

namespace Sys2Proof.Machine

/-- X as a cell index, `zext_8(X)` (R68). -/
def indexOperand (x : Byte) : Nat := x.toNat

/-- A as the age SET passes to `set`, zero-extended; `set` masks it (R68). -/
def ageOperand (a : BitVec 4) : Byte := a.setWidth 8

/-- The check of SET and GET: X names a cell (R76, R77). -/
def State.isCell (s : State) (x : Byte) : Bool := decide (indexOperand x < s.config.cells)

/-- FAULT_INFO of INDEX_RANGE: `zext_16(X)` (R95). -/
def indexInfo (x : Byte) : Word := x.setWidth 16

/-- FAULT_INFO of TOPOLOGY_ENTRY and SEED_RANGE: `{i[7:0], e}` (R95). -/
def entryInfo (i : Nat) (e : Byte) : Word := BitVec.ofNat 8 i ++ e

/-- GET's response, `zext_24(age)` (R74). -/
def ageResponse (age : Byte) : Rsp := age.setWidth 24

/-- COLOR's response, `{r, g, b}` (R74). -/
def colourResponse (col : Colour) : Rsp := col.r ++ col.g ++ col.b

end Sys2Proof.Machine
end

