-- ==== Sys2Proof/Machine/Engine.lean ====
section
/-! DEFINITION. The automaton engine: the neighbour scan (R79), the transition function (R80) and
ADVANCE (R81). -/

namespace Sys2Proof.Machine

/-- The scan of a neighbour list with `n` live neighbours counted so far; a malformed entry is
answered as an error (R79). -/
def scanSlots (c : Config) (cur : Memory) : List Byte → Nat → Except Byte Nat
  | [], n => .ok n
  | e :: es, n =>
    if e = sentinel then .ok n
    else if c.cells ≤ e.toNat then .error e
    else scanSlots c cur es (if 0 < (getCell c cur e.toNat).toNat then n + 1 else n)

/-- `live_count(c)` (R79). -/
def liveCount (c : Config) (cur : Memory) (cell : Nat) : Except Byte Nat :=
  scanSlots c cur (c.topoSlots cell) 0

/-- The survival predicate (R32, R80). -/
def survives (n : Nat) : Bool := n == 2 || n == 3

/-- The spawn predicate (R32, R80). -/
def spawns (n : Nat) : Bool := n == 2 || n == 5

/-- The transition function T(v, n), on integers (R80). -/
def transition (maxAge v n : Nat) : Nat :=
  if 0 < v then (if survives n then min (v + 1) maxAge else 0)
  else (if spawns n then 1 else 0)

/-- The update of one cell of the next buffer, which writes only a cell whose age changes (R81). -/
def updateCell (c : Config) (nxt : Memory) (cell n : Nat) (v : Byte) : Memory :=
  if 0 < v.toNat then
    if survives n then (if v.toNat < c.maxAge then setCell c nxt cell (v + 1) else nxt)
    else setCell c nxt cell 0
  else if spawns n then setCell c nxt cell 1
  else nxt

/-- ADVANCE's loop over the cells (R81): it stops at the first malformed entry (R98). -/
def advanceCells (c : Config) (cur : Memory) : List Nat → Memory → Pass
  | [], nxt => .done nxt
  | cell :: rest, nxt =>
    match liveCount c cur cell with
    | .error e => .stopped nxt .topologyEntry (entryInfo cell e)
    | .ok n => advanceCells c cur rest (updateCell c nxt cell n (getCell c cur cell))

/-- ADVANCE's pass: the initializing copy, then the loop over cells 0 to N - 1 (R81). -/
def advancePass (c : Config) (cur nxt : Memory) : Pass :=
  advanceCells c cur (List.range c.cells) (nxt.fill c.storeBytes cur.read)

/-- ADVANCE: computes the next generation into the next buffer, then swaps the roles (R81). -/
def execAdvance (s : State) : Result :=
  unlessFaulted (fun s =>
    s.finishPass s.active.other (advancePass s.config s.cur (s.mem s.active.other))) s

end Sys2Proof.Machine
end

