-- ==== Sys2Proof/Machine/Color.lean ====
section
/-! DEFINITION. The Color Mapper (R83) and COLOR (R85). -/

namespace Sys2Proof.Machine

/-- The fallback ("flame") colour of the low 5 bits of a value (R83). -/
def flameColour (v : Byte) : Colour :=
  let w := v &&& 0x1F
  { r := w * 2 + 2, g := w + 1, b := 0 }

/-- `map(v)`: palette entry `v` when v < P, else the fallback colour (R83). -/
def mapColour (c : Config) (v : Byte) : Colour :=
  match c.palette[v.toNat]? with
  | some col => col
  | none => flameColour v

/-- COLOR: reports the colour-map output for a value (R85). -/
def execColor (x : Byte) (s : State) : Result :=
  unlessFaulted (fun s =>
    s.startTransfers (.color x) [.response (colourResponse (mapColour s.config x))]) s

end Sys2Proof.Machine
end

