-- ==== Sys2Proof/Machine/Frame.lean ====
section
/-! DEFINITION. The Frame Encoder (R86 to R89), RENDER (R90) and RENDER_FILL (R91). -/

namespace Sys2Proof.Machine

/-- The header byte of a pixel record, `0xE0 | BRIGHTNESS5` (R88). -/
def pixelHeader (c : Config) : Byte := 0xE0 ||| c.brightness.setWidth 8

/-- The pixel record of a colour: the header and the components in CHANNEL_ORDER (R88). -/
def pixelRecord (c : Config) (col : Colour) : List Byte :=
  pixelHeader c :: c.order.channels.map col.channel

/-- A frame in which cell `i` has the colour `colourOf i`: start marker (R87), one record per cell in
index order (R88), flush (R89). -/
def frameBytes (c : Config) (colourOf : Nat → Colour) : List Byte :=
  List.replicate 4 0x00 ++
    ((List.range c.cells).flatMap (fun i => pixelRecord c (colourOf i)) ++
      List.replicate c.flushBytes 0xFF)

/-- The frame of a buffer: every cell in the colour of its age (R90). -/
def bufferFrame (c : Config) (m : Memory) : List Byte :=
  frameBytes c (fun i => mapColour c (getCell c m i))

/-- RENDER: emits one frame of the current buffer (R90). -/
def execRender (s : State) : Result :=
  unlessFaulted (fun s =>
    s.startTransfers .render ((bufferFrame s.config s.cur).map .byte)) s

/-- RENDER_FILL: emits one frame in which every pixel has the colour map(X) (R91). -/
def execRenderFill (x : Byte) (s : State) : Result :=
  unlessFaulted (fun s =>
    s.startTransfers (.renderFill x)
      ((frameBytes s.config (fun _ => mapColour s.config x)).map .byte)) s

end Sys2Proof.Machine
end

