-- ==== Sys2Proof/Machine/Store.lean ====
section
/-! DEFINITION. The store commands: CLEAR, SET, GET, LOAD_SEED (R75 to R78). -/

namespace Sys2Proof.Machine

/-- A buffer with each of its bytes written 0x00 (R75). -/
def clearBuffer (c : Config) (m : Memory) : Memory := m.fill c.storeBytes (fun _ => 0)

/-- CLEAR: every byte of both buffers to 0 (R75). -/
def execClear (s : State) : Result :=
  unlessFaulted (fun s =>
    { s with b0 := clearBuffer s.config s.b0, b1 := clearBuffer s.config s.b1 }) s

/-- SET: writes one cell of the current buffer (R76). -/
def execSet (x : Byte) (a : BitVec 4) (s : State) : Result :=
  unlessFaulted (fun s =>
    if s.isCell x then
      s.setMem s.active (setCell s.config s.cur (indexOperand x) (ageOperand a))
    else s.raiseFault .indexRange (indexInfo x)) s

/-- GET: reads one cell of the current buffer (R77). -/
def execGet (x : Byte) (s : State) : Result :=
  unlessFaulted (fun s =>
    if s.isCell x then
      s.startTransfers (.get x) [.response (ageResponse (s.age (indexOperand x)))]
    else s.raiseFault .indexRange (indexInfo x)) s

/-- The loop of LOAD_SEED over the seed entries from position `j` on (R78). -/
def seedPass (c : Config) : List Byte → Nat → Memory → Pass
  | [], _, m => .stopped m .seedUnterminated 0
  | e :: es, j, m =>
    if e = 0 then .done m
    else if c.cells ≤ e.toNat then .stopped m .seedRange (entryInfo j e)
    else seedPass c es (j + 1) (setCell c m e.toNat 1)

/-- LOAD_SEED: age 1 at each listed cell of the current buffer (R78). -/
def execLoadSeed (s : State) : Result :=
  unlessFaulted (fun s =>
    s.finishPass s.active (seedPass s.config s.config.seed 0 s.cur)) s

end Sys2Proof.Machine
end

