-- ==== Sys2Proof/Machine/Dispatch.lean ====
section
/-! DEFINITION. The effect of each command once its word is taken: one arm per constructor. -/

namespace Sys2Proof.Machine

def exec (i : Instr) (s : State) : Host.Outcome State Fault Refusal :=
  match i with
  | .nop => Sys2Proof.Machine.execNop s
  | .clear => Sys2Proof.Machine.execClear s
  | .set x a => Sys2Proof.Machine.execSet x a s
  | .get x => Sys2Proof.Machine.execGet x s
  | .loadSeed => Sys2Proof.Machine.execLoadSeed s
  | .advance => Sys2Proof.Machine.execAdvance s
  | .color x => Sys2Proof.Machine.execColor x s
  | .render => Sys2Proof.Machine.execRender s
  | .renderFill x => Sys2Proof.Machine.execRenderFill x s
  | .status => Sys2Proof.Machine.execStatus s

end Sys2Proof.Machine
end

