-- ==== Sys2Proof/Machine/CommandPort.lean ====
section
/-! DEFINITION. One step of the block at its ports: a reset, a pending transfer, or the next command
word (R42, R43, R47, R110). -/

namespace Sys2Proof.Machine

/-- What the outside does at this step. -/
def Outside.now (o : Outside) : Pins :=
  match o.script with
  | [] => o.after
  | p :: _ => p

/-- What the outside does from the next step on. -/
def Outside.later (o : Outside) : Outside := { o with script := o.script.tail }

/-- The state with this step's outside behaviour used up. -/
def State.tick (s : State) : State := { s with outside := s.outside.later }

/-- The first waiting transfer was accepted; with the last one the command is complete (R42, R43). -/
def State.accepted (s : State) (p : InProgress) (rest : List Transfer) : State :=
  { s with busy := if rest = [] then none else some { p with waiting := rest } }

/-- The command in progress makes its next transfer if the receiver accepts, and waits with its
state kept if not (R42, R43, R108). A command that waits for nothing is complete. -/
def State.serve (s : State) (pins : Pins) (p : InProgress) : State :=
  match p.waiting with
  | [] => { s with busy := none }
  | .response w :: rest =>
    if pins.rspAccept then { s.accepted p rest with responses := s.responses ++ [w] } else s
  | .byte b :: rest =>
    if pins.txAccept then { s.accepted p rest with emitted := s.emitted ++ [b] } else s

/-- The state once the port has taken the host's next word. -/
def State.takeWord (s : State) : State := { s with cmds := s.cmds.tail }

/-- Runs a word the port has taken: its command, or ILLEGAL_COMMAND with the word as information
(R70). While FAULTED = 1 an illegal word changes nothing, since only the first fault is recorded
(R40, R99). -/
def runWord (w : Word) (s : State) : Result :=
  match decode w with
  | .ok i => exec i s
  | .error _ => .next (s.raiseFault .illegalCommand w)

/-- One step: a reset if the reset input is high (R110); else a transfer of the command in progress;
else the next command word, if the host has one (R47). -/
def stepBlock (s : State) : Result :=
  if s.outside.now.reset then .next s.tick.applyReset
  else
    match s.busy with
    | some p => .next (s.tick.serve s.outside.now p)
    | none =>
      match s.cmds with
      | [] => .next s.tick
      | w :: _ => runWord w s.tick.takeWord

/-- The outside with the reset input low at the coming step. -/
def Outside.holdResetLow (o : Outside) : Outside :=
  { o with script := { o.now with reset := false } :: o.script.tail }

/-- The state in which the next step takes and runs the word `w`: the port idle, the reset input
low, and `w` the host's next word (log 7). -/
def State.offerWord (s : State) (w : Word) : State :=
  { s with busy := none, cmds := w :: s.cmds, outside := s.outside.holdResetLow }

end Sys2Proof.Machine
end

