-- ==== Sys2Proof/Machine/Step.lean ====
section
/-! DEFINITION. The step of the machine, and the state in which the next step runs a given word. -/

namespace Sys2Proof.Machine

/-- One step of the machine. -/
def step (s : State) : Host.Outcome State Fault Refusal := stepBlock s

/-- `s` with the word of value `w` (its low `nbits` bits) offered on the command port, so that the
next step takes and runs it. -/
def State.withFetchWord (s : State) (nbits w : Nat) : State :=
  s.offerWord (BitVec.ofNat 16 (w % 2 ^ nbits))

end Sys2Proof.Machine
end

