-- ==== Sys2Proof/WellFormed.lean ====
section
/-! DEFINITION. Which terms the spec admits: the commands (every term, since the operand types are
the field widths of R67), the assembler lines (the operand ranges of R72), and the configurations
(the parameter bounds of R9 to R20). -/

namespace Sys2Proof

/-- Every command term is well formed: X has 8 bits and A has 4 by their types, and each pair is a
legal word (R67, R71). -/
def Instr.wf : Instr → Bool
  | .nop => true
  | .clear => true
  | .set _ _ => true
  | .get _ => true
  | .loadSeed => true
  | .advance => true
  | .color _ => true
  | .render => true
  | .renderFill _ => true
  | .status => true

/-- "An operand out of its range is an assembly error, not a command" (R72). -/
def AsmCmd.wf : AsmCmd → Bool
  | .nop => true
  | .clear => true
  | .set x a => decide (x ≤ 255) && decide (a ≤ 15)
  | .get x => decide (x ≤ 255)
  | .loadSeed => true
  | .advance => true
  | .color v => decide (v ≤ 255)
  | .render => true
  | .renderFill v => decide (v ≤ 255)
  | .status => true
  | .seedCell x => decide (x ≤ 255)
  | .killCell x => decide (x ≤ 255)

/-- The parameter bounds: N (R9), K (R11), P (R16), SEED_LEN (R20), and a topology table of N lists
of K entries (R11, R44). BPV, BRIGHTNESS5 and CHANNEL_ORDER are bounded by their types. -/
def Config.wf (c : Config) : Bool :=
  decide (1 ≤ c.cells) && decide (c.cells ≤ 255) &&
  decide (1 ≤ c.slots) && decide (c.slots ≤ 7) &&
  decide (c.maxAge + 1 ≤ c.palette.length) && decide (c.palette.length ≤ 256) &&
  decide (1 ≤ c.seed.length) && decide (c.seed.length ≤ 256) &&
  decide (c.topology.length = c.cells) && c.topology.all (fun row => decide (row.length = c.slots))

end Sys2Proof
end

