-- ==== Sys2Proof/Machine/Assembler.lean ====
section
/-! DEFINITION. The assembler: lines of text to command words (R72), with the pseudo-commands (R73).
It is no part of the block; the block sees only the words. -/

namespace Sys2Proof.Machine

/-- What a line can be, when it is no error. -/
inductive AsmLine
  /-- blank, or only a comment -/
  | empty
  | word (w : Word)
deriving DecidableEq, Repr

/-- Why a line is an assembly error (R72). -/
inductive AsmError
  /-- no mnemonic of R72 and R73 with these operands -/
  | unknownForm
  /-- an operand that is no decimal or 0x hexadecimal number -/
  | badNumber
  /-- an operand out of its range: "an assembly error, not a command" -/
  | outOfRange
deriving DecidableEq, Repr

/-- The command a line stands for; `SEED x` is `SET x, 1` and `KILL x` is `SET x, 0` (R73). A number
out of its range gives none. -/
def expandAsm (c : AsmCmd) : Option Instr :=
  if c.wf then
    some (match c with
      | .nop => .nop
      | .clear => .clear
      | .set x a => .set (BitVec.ofNat 8 x) (BitVec.ofNat 4 a)
      | .get x => .get (BitVec.ofNat 8 x)
      | .loadSeed => .loadSeed
      | .advance => .advance
      | .color v => .color (BitVec.ofNat 8 v)
      | .render => .render
      | .renderFill v => .renderFill (BitVec.ofNat 8 v)
      | .status => .status
      | .seedCell x => .set (BitVec.ofNat 8 x) 1
      | .killCell x => .set (BitVec.ofNat 8 x) 0)
  else none

/-- Space or tab (log 15). -/
def isBlank (ch : Char) : Bool := ch == ' ' || ch == '\t'

/-- Drops blanks at both ends. -/
def trimBlanks (cs : List Char) : List Char :=
  ((cs.dropWhile isBlank).reverse.dropWhile isBlank).reverse

/-- The value of a digit below `base`; hexadecimal letters in either case (log 15). -/
def digitValue (base : Nat) (ch : Char) : Option Nat :=
  let v :=
    if '0'.toNat ≤ ch.toNat ∧ ch.toNat ≤ '9'.toNat then some (ch.toNat - '0'.toNat)
    else if 'a'.toNat ≤ ch.toNat ∧ ch.toNat ≤ 'f'.toNat then some (ch.toNat - 'a'.toNat + 10)
    else if 'A'.toNat ≤ ch.toNat ∧ ch.toNat ≤ 'F'.toNat then some (ch.toNat - 'A'.toNat + 10)
    else none
  v.filter (fun n => decide (n < base))

/-- The value of a run of digits read after `acc`. -/
def digitsValue (base : Nat) : List Char → Nat → Option Nat
  | [], acc => some acc
  | ch :: rest, acc =>
    match digitValue base ch with
    | some d => digitsValue base rest (acc * base + d)
    | none => none

/-- "A number is decimal or 0x hexadecimal" (R72). -/
def parseNumber (cs : List Char) : Option Nat :=
  match cs with
  | '0' :: 'x' :: d :: ds => digitsValue 16 (d :: ds) 0
  | d :: ds => digitsValue 10 (d :: ds) 0
  | [] => none

/-- The operands: separated by commas (R72). -/
def parseOperands (cs : List Char) : Option (List Nat) :=
  if trimBlanks cs = [] then some []
  else (cs.splitOn ',').mapM (fun op => parseNumber (trimBlanks op))

/-- The forms of R72 and R73, by mnemonic and operands. -/
def asmForm (mnemonic : List Char) (ops : List Nat) : Option AsmCmd :=
  if mnemonic = ['N', 'O', 'P'] ∧ ops = [] then some .nop
  else if mnemonic = ['C', 'L', 'E', 'A', 'R'] ∧ ops = [] then some .clear
  else if mnemonic = ['L', 'O', 'A', 'D', '_', 'S', 'E', 'E', 'D'] ∧ ops = [] then some .loadSeed
  else if mnemonic = ['A', 'D', 'V', 'A', 'N', 'C', 'E'] ∧ ops = [] then some .advance
  else if mnemonic = ['R', 'E', 'N', 'D', 'E', 'R'] ∧ ops = [] then some .render
  else if mnemonic = ['S', 'T', 'A', 'T', 'U', 'S'] ∧ ops = [] then some .status
  else match ops with
    | [x, a] => if mnemonic = ['S', 'E', 'T'] then some (.set x a) else none
    | [x] =>
      if mnemonic = ['G', 'E', 'T'] then some (.get x)
      else if mnemonic = ['C', 'O', 'L', 'O', 'R'] then some (.color x)
      else if mnemonic = ['R', 'E', 'N', 'D', 'E', 'R', '_', 'F', 'I', 'L', 'L'] then
        some (.renderFill x)
      else if mnemonic = ['S', 'E', 'E', 'D'] then some (.seedCell x)
      else if mnemonic = ['K', 'I', 'L', 'L'] then some (.killCell x)
      else none
    | _ => none

/-- The command word of a form, or the error of an operand out of its range (R72, R73). -/
def assembleCmd (c : AsmCmd) : Except AsmError AsmLine :=
  match expandAsm c with
  | none => .error .outOfRange
  | some i => .ok (.word (encode i))

/-- Assembles a mnemonic and its operands. -/
def assembleForm (mnemonic : List Char) (ops : List Nat) : Except AsmError AsmLine :=
  match asmForm mnemonic ops with
  | none => .error .unknownForm
  | some c => assembleCmd c

/-- Assembles one line: the text before `;`, a mnemonic, its operands (R72). -/
def assembleLine (line : List Char) : Except AsmError AsmLine :=
  let text := trimBlanks (line.takeWhile (fun ch => ch != ';'))
  if text = [] then .ok .empty
  else
    match parseOperands (text.dropWhile (fun ch => !isBlank ch)) with
    | none => .error .badNumber
    | some ops => assembleForm (text.takeWhile (fun ch => !isBlank ch)) ops

end Sys2Proof.Machine
end

