-- ==== Sys2Proof/Safety.lean ====
section
/-! DEFINITION. The terms that claims use: the end of a run and its observation (R120), the
invariant of the block, and the neighbours a topology lists. -/

namespace Sys2Proof.Machine

/-- The run that the state belongs to, the one since the last reset, has ended: every word is taken,
the last command has completed, and every response and byte it sent is accepted (R120). -/
def State.ended (s : State) : Bool := s.cmds.isEmpty && s.busy.isNone

/-- A run that ends with FAULTED = 1 is a failed run (R99, R120). -/
def State.goodEnd (s : State) : Bool := s.ended && !s.faulted

/-- A state in which a run starts: what a reset leaves (R109), with no output of the run yet. Its
words are those the host has to send (R120). -/
def State.startsRun (s : State) : Bool :=
  s.busy.isNone && decide (s.active = .b0) && !s.faulted && decide (s.faultCode = 0) &&
    decide (s.faultInfo = 0) && s.responses.isEmpty && s.emitted.isEmpty

/-- The states of the run that `s` belongs to, from `s` on: no step between them is a reset. -/
inductive RunsTo (s : State) : State → Prop
  | start : RunsTo s s
  | goesOn {t u : State} (h : RunsTo s t) (hr : t.outside.now.reset = false)
      (hs : step t = .next u) : RunsTo s u

/-- A run from its start to its end (R120). A reset cuts the run before it: what follows is another
run, and the run that was cut never ends. -/
structure EndedRun (s t : State) : Prop where
  starts : s.startsRun = true
  runs : RunsTo s t
  ended : t.ended = true

/-- The value GET would return for cell `i`: the age's response word (R77), and nothing while
FAULTED = 1, when GET is discarded (R99). -/
def State.getReturns (s : State) (i : Nat) : Option Rsp :=
  if s.faulted then none else some (ageResponse (s.age i))

/-- What an ended run shows: the response words, the emitted bytes, the FAULT level, and the values
GET would return for each cell, `none` where it would return nothing (R120). -/
structure Observation where
  responses : List Rsp
  emitted : List Byte
  fault : Bool
  cells : List (Option Rsp)
deriving DecidableEq, Repr

/-- The observation of a state (R120): of the run since the last reset, so what earlier runs sent is
no part of it. A failed run shows nothing of the store: what the buffers hold
"beyond what GET can read" is no part of it. -/
def State.observe (s : State) : Observation :=
  { responses := s.responses
    emitted := s.emitted
    fault := s.faultOutput
    cells := (List.range s.config.cells).map s.getReturns }

/-- The fault status is one the spec allows: no code and no information while FAULTED = 0 (R109), a
code of R95 while FAULTED = 1. -/
def State.faultStatusLegal (s : State) : Bool :=
  if s.faulted then decide (1 ≤ s.faultCode.toNat) && decide (s.faultCode.toNat ≤ 5)
  else decide (s.faultCode = 0) && decide (s.faultInfo = 0)

/-- The transfers a command in progress may wait for: one response for GET, COLOR and STATUS (R42),
bytes for RENDER and RENDER_FILL (R43), and at least one. -/
def InProgress.legal (p : InProgress) : Bool :=
  match p.cmd with
  | .get _ | .color _ | .status =>
    match p.waiting with
    | [.response _] => true
    | _ => false
  | .render | .renderFill _ =>
    !p.waiting.isEmpty && p.waiting.all fun t => match t with
      | .byte _ => true
      | .response _ => false
  | .nop | .clear | .set _ _ | .loadSeed | .advance => false

/-- The invariant that every step keeps: both buffers in canonical form, a legal fault status, and a
command in progress that waits for transfers of its own kind. -/
def State.inv (s : State) : Bool :=
  Memory.wf s.config.storeBytes s.b0 && Memory.wf s.config.storeBytes s.b1 &&
  s.faultStatusLegal && s.busy.all InProgress.legal

/-- Everything but the contents of the two buffers is the same in two states. -/
structure SameControl (s t : State) : Prop where
  config : t.config = s.config
  active : t.active = s.active
  faulted : t.faulted = s.faulted
  faultCode : t.faultCode = s.faultCode
  faultInfo : t.faultInfo = s.faultInfo
  busy : t.busy = s.busy
  cmds : t.cmds = s.cmds
  outside : t.outside = s.outside
  responses : t.responses = s.responses
  emitted : t.emitted = s.emitted
  pastResponses : t.pastResponses = s.pastResponses
  pastEmitted : t.pastEmitted = s.pastEmitted
  draws : t.draws = s.draws

/-- The entries of a cell's list before the first SENTINEL or the end of the K slots: what the scan
of R79 walks over. -/
def listedEntries (c : Config) (cell : Nat) : List Byte :=
  (c.topoSlots cell).takeWhile (fun e => e != sentinel)

/-- Every listed entry of a cell names a cell (R44). -/
def listsOnlyCells (c : Config) (cell : Nat) : Bool :=
  (listedEntries c cell).all (fun e => decide (e.toNat < c.cells))

/-- A neighbour entry whose age in the current buffer is greater than 0 (R79). -/
def liveEntry (c : Config) (cur : Memory) (e : Byte) : Bool :=
  decide (0 < (getCell c cur e.toNat).toNat)

/-- The number of listed neighbours of a cell that are alive, counted by position (R79). -/
def liveNeighbours (c : Config) (cur : Memory) (cell : Nat) : Nat :=
  (listedEntries c cell).countP (liveEntry c cur)

end Sys2Proof.Machine
end

