-- ==== Sys2Proof/Certificates/Slice0/Obligations.lean ====
section
/-! DEFINITION. The statements about the block that the provers are asked to settle. A statement that
assumes `s.inv` assumes an invariant that `StepKeepsInvariant` and `ResetStateMeetsInvariant` state. -/

open Sys2Proof Sys2Proof.Machine

/-! ### Encoding -/

/-- Words written out from the encodings of R69 decode to the commands they stand for, and reserved
or ill-formed words are illegal (vectors of 95_test_vectors.md section 2.1). -/
def Obligations.OpcodeMapWordsDecode : Prop :=
  decode 0b0000000000000000 = .ok .nop ∧
  decode 0b0001000000000000 = .ok .clear ∧
  decode 0b0010101001111111 = .ok (.set 127 10) ∧
  decode 0b0011000011111110 = .ok (.get 254) ∧
  decode 0b0100000000000000 = .ok .loadSeed ∧
  decode 0b0101000000000000 = .ok .advance ∧
  decode 0b0110000000101000 = .ok (.color 40) ∧
  decode 0b0111000000000000 = .ok .render ∧
  decode 0b1000000011111111 = .ok (.renderFill 255) ∧
  decode 0b1001000000000000 = .ok .status ∧
  decode 0x3100 = .error .mustBeZero ∧
  decode 0x9001 = .error .mustBeZero ∧
  decode 0xA000 = .error .reservedOpcode ∧
  decode 0xFFFF = .error .reservedOpcode

/-- Decoding the word of any command, with every operand value, gives the command back. -/
def Obligations.DecodeOfEncodeIsTheCommand : Prop :=
  ∀ i : Instr, decode (encode i) = .ok i

/-- A legal word is the encoding of what it decodes to: no bit of it is ignored (R71: there are no
"reserved-but-ignored bits"). -/
def Obligations.EncodeOfDecodeIsTheWord : Prop :=
  ∀ (w : Word) (i : Instr), decode w = .ok i → encode i = w

/-- A word is legal exactly in the cases of R71's decoder: OP 0, 1, 4, 5, 7, 9 with bits 11:0 zero,
OP 3, 6, 8 with A zero, and OP 2 always. -/
def Obligations.LegalWordsByOpcode : Prop :=
  ∀ w : Word, (∃ i, decode w = .ok i) ↔
    ((opField w).toNat ∈ [0x0, 0x1, 0x4, 0x5, 0x7, 0x9] ∧ w.toNat % 4096 = 0) ∨
    ((opField w).toNat ∈ [0x3, 0x6, 0x8] ∧ aField w = 0) ∨
    (opField w).toNat = 0x2

/-- R69: the rows of the opcode map do not overlap, a word that decodes matches the row of its
command's mnemonic, and a word that matches a row decodes. -/
def Obligations.LegalWordMatchesExactlyItsRow : Prop :=
  (∀ (w : Word) (r r' : OpcodeRow), r ∈ opcodeRows → r' ∈ opcodeRows →
    r.accepts w = true → r'.accepts w = true → r = r') ∧
  (∀ (w : Word) (i : Instr), decode w = .ok i →
    ∃ r ∈ opcodeRows, r.accepts w = true ∧ r.mnemonic = i.mnemonic) ∧
  (∀ (w : Word) (r : OpcodeRow), r ∈ opcodeRows → r.accepts w = true → ∃ i, decode w = .ok i)

/-- R70: a word is illegal when its OP is reserved or it matches no row; the block takes it, changes
nothing else, and raises ILLEGAL_COMMAND with the word when FAULTED = 0, and discards it when
FAULTED = 1. -/
def Obligations.IllegalWordRaisesIllegalCommand : Prop :=
  (∀ w : Word, (∃ e, decode w = .error e) ↔
    (10 ≤ (opField w).toNat ∨ ∀ r ∈ opcodeRows, r.accepts w = false)) ∧
  (∀ (s : State) (w : Word) (rest : List Word) (e : Illegal),
    s.outside.now.reset = false → s.busy = none → s.cmds = w :: rest → decode w = .error e →
    (s.faulted = false → step s = .next { s with
      cmds := rest, outside := s.outside.later,
      faulted := true, faultCode := 1, faultInfo := w }) ∧
    (s.faulted = true → step s = .next { s with cmds := rest, outside := s.outside.later }))

/-- R72, R73: each of the twelve forms expands to its command, `SEED x` to `SET x, 1` and `KILL x` to
`SET x, 0`, and an operand out of its range gives no command. A line of text that holds a form's
mnemonic, a space and its operands assembles to the form's word, for every decimal or 0x hexadecimal
spelling of an operand in its range, and is an error for one out of its range; a comment changes
nothing. -/
def Obligations.AssemblerExpandsEveryForm : Prop :=
  (expandAsm .nop = some .nop ∧ expandAsm .clear = some .clear ∧
    expandAsm .loadSeed = some .loadSeed ∧ expandAsm .advance = some .advance ∧
    expandAsm .render = some .render ∧ expandAsm .status = some .status) ∧
  (∀ x : Byte, expandAsm (.seedCell x.toNat) = some (.set x 1) ∧
    expandAsm (.killCell x.toNat) = some (.set x 0) ∧
    expandAsm (.get x.toNat) = some (.get x) ∧
    expandAsm (.color x.toNat) = some (.color x) ∧
    expandAsm (.renderFill x.toNat) = some (.renderFill x)) ∧
  (∀ (x : Byte) (a : BitVec 4), expandAsm (.set x.toNat a.toNat) = some (.set x a)) ∧
  (∀ c : AsmCmd, c.wf = false → expandAsm c = none) ∧
  (∀ (m : List Char) (w : Word),
    (m, w) ∈ [(['N', 'O', 'P'], 0x0000), (['C', 'L', 'E', 'A', 'R'], 0x1000),
      (['L', 'O', 'A', 'D', '_', 'S', 'E', 'E', 'D'], 0x4000),
      (['A', 'D', 'V', 'A', 'N', 'C', 'E'], 0x5000), (['R', 'E', 'N', 'D', 'E', 'R'], 0x7000),
      (['S', 'T', 'A', 'T', 'U', 'S'], 0x9000)] →
    assembleLine m = .ok (.word w)) ∧
  (∀ (m : List Char) (op : Byte) (ds : List Char),
    (m, op) ∈ [(['G', 'E', 'T'], 0x30), (['C', 'O', 'L', 'O', 'R'], 0x60),
      (['R', 'E', 'N', 'D', 'E', 'R', '_', 'F', 'I', 'L', 'L'], 0x80),
      (['S', 'E', 'E', 'D'], 0x21), (['K', 'I', 'L', 'L'], 0x20)] →
    (∀ x : Byte, parseNumber ds = some x.toNat →
      assembleLine (m ++ ' ' :: ds) = .ok (.word (op ++ x))) ∧
    (∀ n, parseNumber ds = some n → 255 < n →
      assembleLine (m ++ ' ' :: ds) = .error .outOfRange)) ∧
  (∀ ds es : List Char,
    (∀ (x : Byte) (a : BitVec 4), parseNumber ds = some x.toNat → parseNumber es = some a.toNat →
      assembleLine ('S' :: 'E' :: 'T' :: ' ' :: ds ++ ',' :: ' ' :: es) =
        .ok (.word ((0x2#4 ++ a) ++ x))) ∧
    (∀ n k, parseNumber ds = some n → parseNumber es = some k → 255 < n ∨ 15 < k →
      assembleLine ('S' :: 'E' :: 'T' :: ' ' :: ds ++ ',' :: ' ' :: es) = .error .outOfRange)) ∧
  (∀ line comment : List Char, ';' ∉ line →
    assembleLine (line ++ ';' :: comment) = assembleLine line)

/-! ### The ports and the step -/

/-- When the port is idle, the reset input is low and the host's next word decodes to a command, the
step is that command's `exec` in the state with the word taken and this step's outside used up.
`withFetchWord` sets up such a state. -/
def Obligations.StepRunsTheDecodedCommand : Prop :=
  (∀ (s : State) (w : Word) (rest : List Word) (i : Instr),
    s.outside.now.reset = false → s.busy = none → s.cmds = w :: rest → decode w = .ok i →
    step s = exec i { s with cmds := rest, outside := s.outside.later }) ∧
  (∀ (s : State) (i : Instr), step (s.withFetchWord 16 (encode i).toNat) =
    exec i { s with busy := none, outside := s.outside.later })

/-- R47: while a command is in progress the port takes no word, and the command in progress stays the
same until it is complete. R108: while it waits on a port, the block's state is kept. That nothing
but the transfers of the command is left to do between its steps, so that neither the store, nor
ACTIVE, nor the fault status changes while it is in progress, is the model's choice of events: a
command's store effect is one step, that in which its word is taken (log 5, log 9). -/
def Obligations.BusyPortTakesNoWord : Prop :=
  ∀ (s t : State) (p : InProgress), s.busy = some p → s.outside.now.reset = false →
    step s = .next t →
    t.cmds = s.cmds ∧ t.b0 = s.b0 ∧ t.b1 = s.b1 ∧ t.active = s.active ∧
    t.faulted = s.faulted ∧ t.faultCode = s.faultCode ∧ t.faultInfo = s.faultInfo ∧
    (t.busy = none ∨ ∃ q, t.busy = some q ∧ q.cmd = p.cmd)

/-- R42, R43: the first waiting transfer is made when its receiver accepts, and the command is
complete with its last transfer; until then the command waits with its state kept. -/
def Obligations.TransferWaitsForItsReceiver : Prop :=
  ∀ (s : State) (i : Instr) (rest : List Transfer), s.outside.now.reset = false →
    (∀ w : Rsp, s.busy = some { cmd := i, waiting := .response w :: rest } →
      step s = .next (if s.outside.now.rspAccept then { s with
          outside := s.outside.later, responses := s.responses ++ [w],
          busy := if rest = [] then none else some { cmd := i, waiting := rest } }
        else { s with outside := s.outside.later })) ∧
    (∀ b : Byte, s.busy = some { cmd := i, waiting := .byte b :: rest } →
      step s = .next (if s.outside.now.txAccept then { s with
          outside := s.outside.later, emitted := s.emitted ++ [b],
          busy := if rest = [] then none else some { cmd := i, waiting := rest } }
        else { s with outside := s.outside.later }))

/-- R117: a receiver that never accepts hangs the block: the command never completes. -/
def Obligations.ReceiverThatNeverAcceptsHangsTheBlock : Prop :=
  ∀ (s : State) (i : Instr) (x : Transfer) (rest : List Transfer) (pins : Pins) (n : Nat),
    s.busy = some { cmd := i, waiting := x :: rest } →
    s.outside = { script := [], after := pins } → pins.reset = false →
    (match x with
      | .response _ => pins.rspAccept = false
      | .byte _ => pins.txAccept = false) →
    Host.Core.run core n s = .next s

/-- R42, R43, R110: what a receiver has accepted is never taken back, in any step; a step makes at
most one transfer. -/
def Obligations.AcceptedOutputIsNeverTakenBack : Prop :=
  ∀ s t : State, step s = .next t →
    ∃ (r : List Rsp) (e : List Byte), t.allResponses = s.allResponses ++ r ∧
      t.allEmitted = s.allEmitted ++ e ∧ r.length + e.length ≤ 1

/-- R42 of GET, COLOR and STATUS: taken when the port is idle and the receiver accepts, the command
sends its one response, and is then complete. That this takes exactly two steps, one that takes the
word and one that makes the transfer, is the model's choice of events (log 5). -/
def Obligations.ResponseIsDeliveredOnce : Prop :=
  ∀ (s : State) (i : Instr) (r : Rsp) (rest : List Word) (pins : Pins),
    s.busy = none → s.cmds = encode i :: rest → s.outside = { script := [], after := pins } →
    pins.reset = false → pins.rspAccept = true →
    exec i { s with cmds := rest } =
      .next { s with cmds := rest, busy := some { cmd := i, waiting := [.response r] } } →
    Host.Core.run core 2 s = .next { s with cmds := rest, responses := s.responses ++ [r] }

/-- R64, R116: no step changes the configuration. -/
def Obligations.NoStepChangesConfiguration : Prop :=
  ∀ s t : State, step s = .next t → t.config = s.config

/-! ### Reset -/

/-- R109: the reset input gives the reset state. The store bytes are the free bytes of a draw of
their own (their form is log 3). -/
def Obligations.ResetInputGivesResetState : Prop :=
  ∀ s : State, s.outside.now.reset = true →
    ∃ t, step s = .next t ∧ t.active = .b0 ∧ t.faulted = false ∧ t.faultCode = 0 ∧
      t.faultInfo = 0 ∧ t.faultOutput = false ∧ t.busy = none ∧ t.cmdReady = true ∧
      ∀ (b : Buf) (k : Nat), k < s.config.storeBytes →
        (t.mem b).read k = Config.freeByte s.draws b.bit.toNat k

/-- R110: a reset abandons the command in progress with its pending transfers; what was accepted
before stays, and nothing more is sent in that step. The host's words not yet taken stay offered:
the model's choice (log 13). -/
def Obligations.ResetAbandonsTheCommandInProgress : Prop :=
  ∀ s : State, s.outside.now.reset = true →
    ∃ t, step s = .next t ∧ t.busy = none ∧ t.allResponses = s.allResponses ∧
      t.allEmitted = s.allEmitted ∧
      t.config = s.config ∧ t.cmds = s.cmds ∧ t.outside = s.outside.later

/-- R109 of the model's own reset state, with the reference values of R9 to R12. -/
def Obligations.MachineResetStateIsTheSpecs : Prop :=
  State.reset.active = .b0 ∧ State.reset.faulted = false ∧ State.reset.faultCode = 0 ∧
  State.reset.faultInfo = 0 ∧ State.reset.busy = none ∧ State.reset.statusWord = 0 ∧
  State.reset.config.cells = 255 ∧ State.reset.config.rings = 10 ∧
  State.reset.config.slots = 6 ∧ State.reset.config.maxAge = 3 ∧
  State.reset.config.storeBytes = 64 ∧ State.reset.config.flushBytes = 17 ∧
  State.reset.config.frameBytes = 1041 ∧ State.reset.config.wf = true ∧
  ∀ (b : Buf) (k : Nat), k < 64 → (State.reset.mem b).read k = Config.freeByte 0 b.bit.toNat k

/-! ### Faults -/

/-- R40: the first fault since reset is recorded and no later one, and nothing else changes. -/
def Obligations.OnlyTheFirstFaultIsRecorded : Prop :=
  ∀ (s : State) (c : FaultCode) (info : Word),
    (s.faulted = false → s.raiseFault c info =
      { s with faulted := true, faultCode := c.bits, faultInfo := info }) ∧
    (s.faulted = true → s.raiseFault c info = s)

/-- R99: while FAULTED = 1 the block takes each word; it executes 0x9000 (STATUS) and discards every
other word; FAULTED, FAULT_CODE and FAULT_INFO keep their values until reset; the state is never a
correct end of a run. -/
def Obligations.FaultedBlockDiscardsAllButStatus : Prop :=
  ∀ s : State, s.faulted = true →
    s.goodEnd = false ∧
    (s.outside.now.reset = false → ∃ t, step s = .next t ∧ t.faulted = true ∧
      t.faultCode = s.faultCode ∧ t.faultInfo = s.faultInfo ∧ t.faultOutput = true) ∧
    (∀ (w : Word) (rest : List Word), s.outside.now.reset = false → s.busy = none →
      s.cmds = w :: rest →
      (w ≠ 0x9000 → step s = .next { s with cmds := rest, outside := s.outside.later }) ∧
      (w = 0x9000 → step s = .next { s with
        cmds := rest, outside := s.outside.later,
        busy := some { cmd := .status, waiting := [.response s.statusWord] } }))

/-- R94, R95, R96: a step sets FAULTED only by taking a word, with a code and information of R95's
table: an illegal word; SET or GET with X >= N; ADVANCE on a malformed topology entry; LOAD_SEED on
an entry >= N or a list with no 0. CLEAR, COLOR, RENDER, RENDER_FILL, NOP and STATUS never fault. -/
def Obligations.FaultIsOneOfTheTable : Prop :=
  ∀ s t : State, step s = .next t → s.faulted = false → t.faulted = true →
    s.busy = none ∧ ∃ (w : Word) (rest : List Word), s.cmds = w :: rest ∧ t.cmds = rest ∧
      (((∃ e, decode w = .error e) ∧ t.faultCode = 1 ∧ t.faultInfo = w) ∨
       (∃ x : Byte, (decode w = .ok (.get x) ∨ ∃ a, decode w = .ok (.set x a)) ∧
          s.config.cells ≤ x.toNat ∧ t.faultCode = 2 ∧ t.faultInfo = x.setWidth 16) ∨
       (∃ (c : Nat) (e : Byte), decode w = .ok .advance ∧ c < s.config.cells ∧
          e ∈ listedEntries s.config c ∧ e ≠ sentinel ∧ s.config.cells ≤ e.toNat ∧
          t.faultCode = 3 ∧ t.faultInfo = BitVec.ofNat 8 c ++ e) ∨
       (∃ (j : Nat) (e : Byte), decode w = .ok .loadSeed ∧ s.config.seed[j]? = some e ∧
          e ≠ 0 ∧ s.config.cells ≤ e.toNat ∧ t.faultCode = 4 ∧
          t.faultInfo = BitVec.ofNat 8 j ++ e) ∨
       (decode w = .ok .loadSeed ∧ (∀ e ∈ s.config.seed, e ≠ 0) ∧
          t.faultCode = 5 ∧ t.faultInfo = 0))

/-- With N = 255 every 8-bit entry that is no cell is SENTINEL, so ADVANCE cannot fault. -/
def Obligations.AdvanceCannotFaultWith255Cells : Prop :=
  ∀ s : State, s.config.cells = 255 → s.faulted = false →
    ∃ t, exec .advance s = .next t ∧ t.faulted = false ∧ t.active = s.active.other

/-! ### Whole-machine rules -/

/-- R37: without a reset, only ADVANCE (0x5000), run with FAULTED = 0, changes ACTIVE, and it
inverts it. -/
def Obligations.OnlyAdvanceChangesActive : Prop :=
  ∀ s t : State, step s = .next t → s.outside.now.reset = false → t.active ≠ s.active →
    s.busy = none ∧ s.cmds.head? = some 0x5000 ∧ s.faulted = false ∧ t.active = s.active.other

/-- R54: without a reset, only CLEAR, SET and LOAD_SEED change the current buffer, and only CLEAR and
ADVANCE the other one. -/
def Obligations.OnlyStoreCommandsChangeTheStore : Prop :=
  ∀ s t : State, step s = .next t → s.outside.now.reset = false →
    (t.mem s.active ≠ s.mem s.active → s.busy = none ∧ ∃ (w : Word) (rest : List Word),
      s.cmds = w :: rest ∧ (w = 0x1000 ∨ w = 0x4000 ∨ (opField w).toNat = 0x2)) ∧
    (t.mem s.active.other ≠ s.mem s.active.other → s.busy = none ∧ ∃ (w : Word) (rest : List Word),
      s.cmds = w :: rest ∧ (w = 0x1000 ∨ w = 0x5000))

/-- R38, R81: padding slots and the next buffer have no effect on any output. Two states that agree
on everything but the store, and on the ages of the current buffer's cells, step without reset to two
such states: they send the same responses and bytes until a reset comes. What the store holds after a
reset is drawn anew in each run (R111), so nothing is said of a reset step. -/
def Obligations.OutputsDependOnCurrentCellsOnly : Prop :=
  ∀ s s' : State, s.inv = true → s'.inv = true → SameControl s s' →
    s.outside.now.reset = false →
    (∀ idx, idx < s.config.cells → s'.age idx = s.age idx) →
    ∃ t t', step s = .next t ∧ step s' = .next t' ∧ SameControl t t' ∧
      ∀ idx, idx < t.config.cells → t'.age idx = t.age idx

/-- R57: repeating CLEAR, SET or LOAD_SEED changes the store no further, and repeating GET, COLOR,
STATUS, RENDER, RENDER_FILL or NOP gives the same state, with the same transfers, again. -/
def Obligations.RepeatedCommandHasNoFurtherEffect : Prop :=
  ∀ (i : Instr) (s t u : State), s.inv = true → i ≠ .advance →
    exec i s = .next t → exec i t = .next u → u = t

/-- The invariant that the other statements assume is kept by every step, a reset and a fault among
them: both buffers stay in canonical form, the fault status stays one of R95's (codes 6 and 7 never
appear), and a command in progress waits for transfers of its own kind only. -/
def Obligations.StepKeepsInvariant : Prop :=
  ∀ s t : State, s.inv = true → step s = .next t → t.inv = true

/-- The invariant holds right after reset. -/
def Obligations.ResetStateMeetsInvariant : Prop := State.reset.inv = true

/-! ### The packed store -/

/-- R39: every value of every slot of either buffer is in [0, MAX_AGE], whatever the buffer holds. -/
def Obligations.EveryAgeIsInRange : Prop :=
  ∀ (s : State) (b : Buf) (idx : Nat),
    (getCell s.config (s.mem b) idx).toNat ≤ 2 ^ s.config.bpv.bits - 1

/-- R51: cell VPB * k + s takes bits BPV * s to BPV * (s + 1) - 1 of byte k. -/
def Obligations.CellLayoutInItsByte : Prop :=
  ∀ (c : Config) (m : Memory) (k s i : Nat), s < 8 / c.bpv.bits →
    (getCell c m (8 / c.bpv.bits * k + s)).getLsbD i =
      (decide (i < c.bpv.bits) && (m.read k).getLsbD (c.bpv.bits * s + i))

/-- R50: after `set` the cell's slot holds the value masked to BPV bits, and every other bit of its
byte, and every other byte, is what it was. -/
def Obligations.SetReplacesOnlyTheSlotBits : Prop :=
  ∀ (c : Config) (m : Memory) (idx : Nat) (v : Byte), Memory.wf c.storeBytes m = true →
    idx < c.cells →
    (∀ i, i < 8 → ((setCell c m idx v).read (idx / c.valuesPerByte)).getLsbD i =
      if bitShift c idx ≤ i ∧ i < bitShift c idx + c.bpv.bits then v.getLsbD (i - bitShift c idx)
      else (m.read (idx / c.valuesPerByte)).getLsbD i) ∧
    (∀ k, k ≠ idx / c.valuesPerByte → (setCell c m idx v).read k = m.read k)

/-- R75: CLEAR writes 0 to every byte of both buffers, padding included; ACTIVE, the fault status and
everything else are unchanged. -/
def Obligations.ClearZeroesBothBuffers : Prop :=
  ∀ s : State, s.inv = true → s.faulted = false →
    ∃ t, exec .clear s = .next t ∧
      (∀ (b : Buf) (k : Nat), k < s.config.storeBytes → (t.mem b).read k = 0) ∧
      (∀ (b : Buf) (idx : Nat), getCell t.config (t.mem b) idx = 0) ∧ SameControl s t

/-- R76: SET with X < N stores A masked to BPV bits in cell X of the current buffer; every other slot,
every other byte, the other buffer and all control state are unchanged. With X >= N it raises
INDEX_RANGE and writes nothing. -/
def Obligations.SetWritesOneCellOrFaults : Prop :=
  ∀ (s : State) (x : Byte) (a : BitVec 4), s.inv = true → s.faulted = false →
    (x.toNat < s.config.cells → ∃ t, exec (.set x a) s = .next t ∧
      (t.age x.toNat).toNat = a.toNat % 2 ^ s.config.bpv.bits ∧
      (∀ idx, idx ≠ x.toNat → t.age idx = s.age idx) ∧
      (∀ k, k ≠ byteIndex s.config x.toNat → t.cur.read k = s.cur.read k) ∧
      t.mem s.active.other = s.mem s.active.other ∧ SameControl s t) ∧
    (s.config.cells ≤ x.toNat → exec (.set x a) s = .next
      { s with faulted := true, faultCode := 2, faultInfo := x.setWidth 16 })

/-- R77: GET with X < N responds the age of cell X of the current buffer, by the formula of R49, and
changes nothing else. With X >= N it raises INDEX_RANGE and sends no response. -/
def Obligations.GetRespondsTheAgeOrFaults : Prop :=
  ∀ (s : State) (x : Byte), s.faulted = false →
    (x.toNat < s.config.cells → ∃ r : Rsp, exec (.get x) s = .next
        { s with busy := some { cmd := .get x, waiting := [.response r] } } ∧
      r.toNat = (s.cur.read (x.toNat / s.config.valuesPerByte)).toNat /
        2 ^ (x.toNat % s.config.valuesPerByte * s.config.bpv.bits) % 2 ^ s.config.bpv.bits) ∧
    (s.config.cells ≤ x.toNat → exec (.get x) s = .next
      { s with faulted := true, faultCode := 2, faultInfo := x.setWidth 16 })

/-- §8's round trip (W1), R114: a GET right after a SET of the same cell responds what was stored, and
of another cell what GET would have responded before. -/
def Obligations.GetAfterSetReadsWhatWasWritten : Prop :=
  ∀ (s t : State) (x y : Byte) (a : BitVec 4), s.inv = true → s.faulted = false →
    x.toNat < s.config.cells → y.toNat < s.config.cells → exec (.set x a) s = .next t →
    ∃ r : Rsp, exec (.get y) t =
        .next { t with busy := some { cmd := .get y, waiting := [.response r] } } ∧
      (y = x → r.toNat = a.toNat % 2 ^ s.config.bpv.bits) ∧
      (y ≠ x → exec (.get y) s =
        .next { s with busy := some { cmd := .get y, waiting := [.response r] } })

/-- R78: LOAD_SEED sets age 1 at each cell listed before the first 0, entries after it are never
read; an entry that is not 0 and >= N raises SEED_RANGE, and a list with no 0 raises
SEED_UNTERMINATED, each with the entries before it set. Every other slot, the other buffer and the
rest of the state are unchanged. -/
def Obligations.LoadSeedSetsTheListedCells : Prop :=
  ∀ (s : State) (pre : List Byte), s.inv = true → s.faulted = false →
    (∀ e ∈ pre, e ≠ 0 ∧ e.toNat < s.config.cells) →
    (∀ post, s.config.seed = pre ++ 0 :: post → ∃ t, exec .loadSeed s = .next t ∧
      (∀ idx, t.age idx = if ∃ e ∈ pre, e.toNat = idx then 1 else s.age idx) ∧
      t.mem s.active.other = s.mem s.active.other ∧ SameControl s t) ∧
    (∀ e post, s.config.seed = pre ++ e :: post → e ≠ 0 → s.config.cells ≤ e.toNat →
      ∃ t, exec .loadSeed s = .next t ∧
        (∀ idx, t.age idx = if ∃ e ∈ pre, e.toNat = idx then 1 else s.age idx) ∧
        t.mem s.active.other = s.mem s.active.other ∧
        SameControl { s with faulted := true, faultCode := 4,
                             faultInfo := BitVec.ofNat 8 pre.length ++ e } t) ∧
    (s.config.seed = pre → ∃ t, exec .loadSeed s = .next t ∧
      (∀ idx, t.age idx = if ∃ e ∈ pre, e.toNat = idx then 1 else s.age idx) ∧
      t.mem s.active.other = s.mem s.active.other ∧
      SameControl { s with faulted := true, faultCode := 5, faultInfo := 0 } t)

/-! ### The automaton engine -/

/-- R80: the transition function, by its table for MAX_AGE = 3 and K = 6, and by its rule for every
age and count. -/
def Obligations.TransitionTableAndRule : Prop :=
  ((List.range 4).map (fun v => (List.range 7).map (transition 3 v)) =
    [[0, 0, 1, 0, 0, 1, 0], [0, 0, 2, 2, 0, 0, 0], [0, 0, 3, 3, 0, 0, 0], [0, 0, 3, 3, 0, 0, 0]]) ∧
  ∀ maxAge v n : Nat,
    (0 < v → n = 2 ∨ n = 3 → transition maxAge v n = min (v + 1) maxAge) ∧
    (0 < v → n ≠ 2 → n ≠ 3 → transition maxAge v n = 0) ∧
    (v = 0 → n = 2 ∨ n = 5 → transition maxAge v n = 1) ∧
    (v = 0 → n ≠ 2 → n ≠ 5 → transition maxAge v n = 0)

/-- R79: the scan stops at the first SENTINEL or after slot K - 1, counts the listed entries whose
age in the current buffer is greater than 0, and answers the first malformed entry it meets. -/
def Obligations.LiveCountCountsListedLiveNeighbours : Prop :=
  ∀ (c : Config) (cur : Memory) (cell : Nat),
    (listsOnlyCells c cell = true → liveCount c cur cell =
      .ok ((((List.range c.slots).map (c.topo cell)).takeWhile (fun e => e != 0xFF)).countP
        (fun e => decide (0 < (getCell c cur e.toNat).toNat)))) ∧
    (∀ pre x post, ((List.range c.slots).map (c.topo cell)).takeWhile (fun e => e != 0xFF) =
        pre ++ x :: post → (∀ e ∈ pre, e.toNat < c.cells) → c.cells ≤ x.toNat →
      liveCount c cur cell = .error x)

/-- R81: with no malformed entry in a list that is scanned, ADVANCE gives every cell c of the new
current buffer the age T(age of c, live count of c) of the old one, padding slots their old content,
inverts ACTIVE, and leaves the old current buffer and everything else unchanged. At the first
malformed entry in (cell, slot) order it raises TOPOLOGY_ENTRY: no swap, the current buffer
unchanged, and the next buffer holding the copy with the results of the cells before the faulting
one (R97, R98). -/
def Obligations.AdvanceComputesTheNextGeneration : Prop :=
  ∀ s : State, s.inv = true → s.faulted = false →
    ((∀ c, c < s.config.cells → listsOnlyCells s.config c = true) →
      ∃ t, exec .advance s = .next t ∧ t.active = s.active.other ∧
        (∀ c, c < s.config.cells → (t.age c).toNat =
          transition s.config.maxAge (s.age c).toNat (liveNeighbours s.config s.cur c)) ∧
        (∀ idx, s.config.cells ≤ idx → idx < s.config.storeBytes * s.config.valuesPerByte →
          t.age idx = s.age idx) ∧
        t.mem s.active = s.mem s.active ∧ SameControl { s with active := s.active.other } t) ∧
    (∀ c pre x post, c < s.config.cells →
      (∀ c', c' < c → listsOnlyCells s.config c' = true) →
      listedEntries s.config c = pre ++ x :: post →
      (∀ e ∈ pre, e.toNat < s.config.cells) → s.config.cells ≤ x.toNat →
      ∃ t, exec .advance s = .next t ∧ t.mem s.active = s.mem s.active ∧
        (∀ c', c' < c → (getCell s.config (t.mem s.active.other) c').toNat =
          transition s.config.maxAge (s.age c').toNat (liveNeighbours s.config s.cur c')) ∧
        (∀ idx, c ≤ idx → idx < s.config.storeBytes * s.config.valuesPerByte →
          getCell s.config (t.mem s.active.other) idx = s.age idx) ∧
        SameControl { s with faulted := true, faultCode := 3,
                             faultInfo := BitVec.ofNat 8 c ++ x } t)

/-- R81 (corner case 7): ADVANCE on an all-dead buffer leaves it all dead. -/
def Obligations.AdvanceOfAllDeadStaysDead : Prop :=
  ∀ s t : State, s.inv = true → s.faulted = false →
    (∀ c, c < s.config.cells → listsOnlyCells s.config c = true) →
    (∀ c, c < s.config.cells → s.age c = 0) → exec .advance s = .next t →
    t.active = s.active.other ∧ ∀ c, c < s.config.cells → t.age c = 0

/-! ### The Color Mapper -/

/-- R83: map(v) is palette entry v for v < P, and for v >= P the fallback colour of its low 5 bits. -/
def Obligations.MapIsPaletteOrFlame : Prop :=
  ∀ (c : Config) (v : Byte),
    (∀ h : v.toNat < c.palette.length, mapColour c v = c.palette[v.toNat]) ∧
    (c.palette.length ≤ v.toNat → (mapColour c v).r.toNat = v.toNat % 32 * 2 + 2 ∧
      (mapColour c v).g.toNat = v.toNat % 32 + 1 ∧ (mapColour c v).b = 0)

/-- R84: with a legal configuration every age of either buffer is below P and is mapped by the palette,
and RENDER never uses the fallback: it sends the frame in which the colour of each cell is the
palette entry at the cell's age. -/
def Obligations.RenderNeverUsesTheFallback : Prop :=
  ∀ s : State, s.config.wf = true →
    (∀ (b : Buf) (idx : Nat),
      s.config.palette[(getCell s.config (s.mem b) idx).toNat]? =
        some (mapColour s.config (getCell s.config (s.mem b) idx))) ∧
    (s.faulted = false → ∃ colourOf : Nat → Colour,
      exec .render s = .next { s with busy := some (InProgress.mk .render
        ((frameBytes s.config colourOf).map .byte)) } ∧
      ∀ i, i < s.config.cells → s.config.palette[(s.age i).toNat]? = some (colourOf i))

/-- R85: COLOR responds map(X), r in bits 23:16, g in bits 15:8, b in bits 7:0, and changes nothing
else. -/
def Obligations.ColorRespondsTheMappedColour : Prop :=
  ∀ (s : State) (x : Byte), s.faulted = false →
    ∃ r : Rsp, exec (.color x) s = .next
        { s with busy := some { cmd := .color x, waiting := [.response r] } } ∧
      r.extractLsb' 16 8 = (mapColour s.config x).r ∧
      r.extractLsb' 8 8 = (mapColour s.config x).g ∧
      r.extractLsb' 0 8 = (mapColour s.config x).b

/-! ### The Frame Encoder -/

/-- R86 to R89: a frame has 4 + 4 * N + ceil(N / 16) + 1 bytes: four 0x00, then for each cell in
index order the header 0xE0 + BRIGHTNESS5 and the three components in CHANNEL_ORDER, then the 0xFF
flush. -/
def Obligations.FrameLayout : Prop :=
  ∀ (c : Config) (colourOf : Nat → Colour),
    (frameBytes c colourOf).length = 4 + 4 * c.cells + ((c.cells + 15) / 16 + 1) ∧
    (∀ i, i < 4 → (frameBytes c colourOf)[i]? = some 0x00) ∧
    (∀ i, i < c.cells → ((frameBytes c colourOf)[4 + 4 * i]?).map BitVec.toNat =
      some (0xE0 + c.brightness.toNat)) ∧
    (∀ i m, i < c.cells → m < 3 → (frameBytes c colourOf)[4 + 4 * i + 1 + m]? =
      c.order.channels[m]?.map (colourOf i).channel) ∧
    (∀ j, j < (c.cells + 15) / 16 + 1 →
      (frameBytes c colourOf)[4 + 4 * c.cells + j]? = some 0xFF)

/-- R90, R91: RENDER starts the emission of the frame in which each cell has the colour of its age in
the current buffer, RENDER_FILL that of the frame in which every cell has the colour map(X); neither
changes anything else. -/
def Obligations.RenderCommandsStartTheirFrame : Prop :=
  ∀ (s : State) (x : Byte), s.faulted = false →
    exec .render s = .next { s with busy := some (InProgress.mk .render
      ((frameBytes s.config (fun i => mapColour s.config (s.age i))).map .byte)) } ∧
    exec (.renderFill x) s = .next { s with busy := some (InProgress.mk (.renderFill x)
      ((frameBytes s.config (fun _ => mapColour s.config x)).map .byte)) }

/-- R90, R91, R115: a render command taken by an idle port whose byte sink accepts emits its frame
byte by byte, in order and nothing else, and completes with the last flush byte; no word is taken
and no other state changes on the way. That k bytes have left after k + 1 steps, one that takes the
word and one for each byte, is the model's choice of events (log 5). -/
def Obligations.RenderEmitsItsWholeFrame : Prop :=
  ∀ (s : State) (i : Instr) (frame : List Byte) (rest : List Word) (pins : Pins) (k : Nat),
    s.busy = none → s.faulted = false → s.cmds = encode i :: rest →
    s.outside = { script := [], after := pins } → pins.reset = false → pins.txAccept = true →
    ((i = .render ∧ frame = frameBytes s.config (fun c => mapColour s.config (s.age c))) ∨
      ∃ x, i = .renderFill x ∧ frame = frameBytes s.config (fun _ => mapColour s.config x)) →
    k ≤ 4 + 4 * s.config.cells + ((s.config.cells + 15) / 16 + 1) →
    Host.Core.run core (k + 1) s = .next { s with
      cmds := rest, emitted := s.emitted ++ frame.take k,
      busy := if k = 4 + 4 * s.config.cells + ((s.config.cells + 15) / 16 + 1) then none
        else some { cmd := i, waiting := (frame.drop k).map .byte } }

/-! ### Control commands -/

/-- R92: NOP completes at once and changes nothing, with FAULTED = 0 and with FAULTED = 1. -/
def Obligations.NopChangesNothing : Prop :=
  ∀ s : State, exec .nop s = .next s

/-- R41, R93: STATUS responds the status word, with FAULTED = 0 and with FAULTED = 1, and changes
nothing else: FAULTED in bit 0, FAULT_CODE in bits 3:1, ACTIVE in bit 4, zeros in bits 7:5, and
FAULT_INFO in bits 23:8. -/
def Obligations.StatusRespondsTheStatusWord : Prop :=
  ∀ s : State, ∃ r : Rsp,
    exec .status s = .next { s with busy := some { cmd := .status, waiting := [.response r] } } ∧
    r.getLsbD 0 = s.faulted ∧ r.extractLsb' 1 3 = s.faultCode ∧
    r.getLsbD 4 = decide (s.active = .b1) ∧ r.extractLsb' 5 3 = 0 ∧
    r.extractLsb' 8 16 = s.faultInfo

/-! ### The end of a run -/

/-- R120: the observation lists, for each cell, the value GET would return: the word GET responds
with. That it lists none in a failed run is the model's deduction (log 18, DEDUCED) from R99, which
discards GET while FAULTED = 1; no rule says it. -/
def Obligations.ObservationShowsWhatGetReturns : Prop :=
  ∀ s : State, s.observe.responses = s.responses ∧ s.observe.emitted = s.emitted ∧
    s.observe.fault = s.faultOutput ∧ s.observe.cells.length = s.config.cells ∧
    ∀ x : Byte, x.toNat < s.config.cells → ∃ o : Option Rsp,
      s.observe.cells[x.toNat]? = some o ∧ (o = none ↔ s.faulted = true) ∧
      (o = none → exec (.get x) s = .next s) ∧
      (∀ r, o = some r → exec (.get x) s =
        .next { s with busy := some { cmd := .get x, waiting := [.response r] } })

/-- R120: the observation does not say what the buffers hold beyond what GET can read, so it says
nothing of padding slots and of the next buffer. That in a failed run it says nothing of the store at
all, so that the partial content which a faulting command leaves (R97) does not show, is the model's
deduction (log 18, DEDUCED) from R99, which discards GET while FAULTED = 1. -/
def Obligations.ObservationShowsNothingBeyondGet : Prop :=
  ∀ s s' : State, SameControl s s' →
    (s.faulted = false → ∀ idx, idx < s.config.cells → s'.age idx = s.age idx) →
    s'.observe = s.observe

/-- R120: a run is what is sent after a reset. A reset step leaves a state in which a run starts, with
no response and no byte in its observation yet, whatever earlier runs sent; `State.reset` is such a
state. That a reset ends the observation of the run before it is log 8 (DESIGN CHOICE). -/
def Obligations.ResetStartsARun : Prop :=
  State.reset.startsRun = true ∧
  ∀ s : State, s.outside.now.reset = true → ∃ t, step s = .next t ∧ t.startsRun = true ∧
    t.observe.responses = [] ∧ t.observe.emitted = [] ∧ t.observe.fault = false

/-- R120: the observation of an ended run lists the responses and bytes accepted in that run, all of
them and nothing that an earlier run sent (a run as log 8, DESIGN CHOICE, takes it). -/
def Obligations.ObservationIsOfTheRunSinceReset : Prop :=
  ∀ s t : State, EndedRun s t → t.config = s.config ∧
    t.allResponses = s.allResponses ++ t.observe.responses ∧
    t.allEmitted = s.allEmitted ++ t.observe.emitted

/-- R86, R120: the bytes of an ended run are whole frames, one after the other, however long the byte
sink made the block wait and whether or not the run failed: only a reset cuts a frame short (R110).
That the run it cuts never ends, and that what follows is another run, is how the model takes R120's
"sent after a reset" (log 8, DESIGN CHOICE). -/
def Obligations.EndedRunEmitsWholeFrames : Prop :=
  ∀ s t : State, EndedRun s t → ∃ frames : List (Nat → Colour),
    t.observe.emitted = frames.flatMap (frameBytes s.config)

/-- R90, R91, R120: the observation of an ended run of one render command is its frame, however long
the byte sink made the block wait, no response, and FAULT low (a run as log 8, DESIGN CHOICE, takes
it). -/
def Obligations.EndedRenderRunShowsItsFrame : Prop :=
  ∀ (s t : State) (i : Instr) (frame : List Byte), EndedRun s t → s.cmds = [encode i] →
    ((i = .render ∧ frame = frameBytes s.config (fun c => mapColour s.config (s.age c))) ∨
      ∃ x, i = .renderFill x ∧ frame = frameBytes s.config (fun _ => mapColour s.config x)) →
    t.observe.emitted = frame ∧ t.observe.responses = [] ∧ t.observe.fault = false
end

