-- ==== Sys2Proof/Laws/Assembler.lean ====
section
/-! SUPPORT. What the assembler does with a line of a mnemonic and its operands. -/

namespace Sys2Proof.Machine

/-- A character that neither ends an operand nor the text before a comment. -/
def isPlain (ch : Char) : Bool := !isBlank ch && ch != ',' && ch != ';'

theorem digitValue_plain {base : Nat} {ch : Char} {n : Nat} (h : digitValue base ch = some n) :
    isPlain ch = true := by
  rcases hp : isPlain ch with _ | _
  · exfalso
    simp only [isPlain, isBlank, Bool.and_eq_false_iff, Bool.not_eq_false', Bool.or_eq_true,
      beq_iff_eq, bne_eq_false_iff_eq] at hp
    rcases hp with ((rfl | rfl) | rfl) | rfl <;> simp [digitValue] at h
  · rfl

theorem digitsValue_plain {base : Nat} {cs : List Char} {acc n : Nat}
    (h : digitsValue base cs acc = some n) : ∀ ch ∈ cs, isPlain ch = true := by
  induction cs generalizing acc with
  | nil => simp
  | cons c cs ih =>
    simp only [digitsValue] at h
    split at h
    · next d hd => simpa using ⟨digitValue_plain hd, fun _ => ih h _⟩
    · cases h

/-- A number has a character, and only plain ones. -/
theorem parseNumber_plain {cs : List Char} {n : Nat} (h : parseNumber cs = some n) :
    cs ≠ [] ∧ ∀ ch ∈ cs, isPlain ch = true := by
  unfold parseNumber at h
  split at h
  · simpa [show isPlain '0' = true from rfl, show isPlain 'x' = true from rfl] using
      digitsValue_plain h
  · exact ⟨by simp, digitsValue_plain h⟩
  · cases h

theorem isPlain_iff {ch : Char} :
    isPlain ch = true ↔ isBlank ch = false ∧ ch ≠ ',' ∧ ch ≠ ';' := by
  simp [isPlain, and_assoc]

/-- Text that neither begins nor ends with a blank is left as it is. -/
theorem trimBlanks_eq {cs : List Char} (h : ∀ ch, cs.head? = some ch → isBlank ch = false)
    (h' : ∀ ch, cs.getLast? = some ch → isBlank ch = false) : trimBlanks cs = cs := by
  have key : ∀ l : List Char, (∀ ch, l.head? = some ch → isBlank ch = false) →
      l.dropWhile isBlank = l := by
    intro l hl
    cases l with
    | nil => rfl
    | cons c l => simp [hl c rfl]
  unfold trimBlanks
  rw [key cs h, key, List.reverse_reverse]
  simpa using h'

theorem trimBlanks_plain {cs : List Char} (h : ∀ ch ∈ cs, isPlain ch = true) :
    trimBlanks cs = cs :=
  trimBlanks_eq (fun ch hc => (isPlain_iff.1 (h ch (List.mem_of_head? hc))).1)
    (fun ch hc => (isPlain_iff.1 (h ch (List.mem_of_getLast? hc))).1)

/-- A line of a mnemonic, a blank and a text of operands, with no comment and no blank at its end. -/
theorem assembleLine_eq {m ops : List Char} {ns : List Nat} (hm : m ≠ []) (hp : ∀ ch ∈ m, isPlain ch = true)
    (hc : ∀ ch ∈ ops, ch ≠ ';') (hl : ∀ ch, (' ' :: ops).getLast? = some ch → isBlank ch = false)
    (hns : parseOperands (' ' :: ops) = some ns) :
    assembleLine (m ++ ' ' :: ops) = assembleForm m ns := by
  have htake : (m ++ ' ' :: ops).takeWhile (fun ch => ch != ';') = m ++ ' ' :: ops := by
    rw [List.takeWhile_eq_self_iff]
    intro ch h
    rcases List.mem_append.1 h with h | h
    · simpa using (isPlain_iff.1 (hp ch h)).2.2
    · rcases List.mem_cons.1 h with rfl | h
      · rfl
      · simpa using hc ch h
  have htrim : trimBlanks (m ++ ' ' :: ops) = m ++ ' ' :: ops := by
    refine trimBlanks_eq ?_ ?_
    · obtain ⟨c, m, rfl⟩ := List.exists_cons_of_ne_nil hm
      simpa using (isPlain_iff.1 (hp c (by simp))).1
    · simpa [List.getLast?_append] using hl
  have hpb : ∀ ch ∈ m, (!isBlank ch) = true := fun ch h => by simp [(isPlain_iff.1 (hp ch h)).1]
  have hb : (!isBlank ' ') = false := rfl
  unfold assembleLine
  simp only [htake, htrim, List.dropWhile_append_of_pos hpb, List.takeWhile_append_of_pos hpb,
    List.dropWhile_cons, List.takeWhile_cons, hb, Bool.false_eq_true, if_false, List.append_nil,
    List.append_eq_nil_iff, hm, false_and, hns]

theorem comma_not_mem_operand {ds : List Char} (hp : ∀ ch ∈ ds, isPlain ch = true) :
    ',' ∉ ' ' :: ds := by
  intro hc
  rcases List.mem_cons.1 hc with hc | hc
  · cases hc
  · exact (isPlain_iff.1 (hp _ hc)).2.1 rfl

/-- One operand after a blank. -/
theorem parseOperands_one {ds : List Char} {n : Nat} (h : parseNumber ds = some n) :
    parseOperands (' ' :: ds) = some [n] := by
  obtain ⟨hne, hp⟩ := parseNumber_plain h
  have ht : trimBlanks (' ' :: ds) = ds := trimBlanks_plain hp
  simp [parseOperands, List.splitOn_eq_singleton (comma_not_mem_operand hp), ht, hne, h]

/-- Two operands after a blank, separated by a comma and a blank. -/
theorem parseOperands_two {ds es : List Char} {n k : Nat} (h : parseNumber ds = some n)
    (h' : parseNumber es = some k) :
    parseOperands (' ' :: (ds ++ ',' :: ' ' :: es)) = some [n, k] := by
  obtain ⟨hne, hp⟩ := parseNumber_plain h
  obtain ⟨hne', hp'⟩ := parseNumber_plain h'
  have ht : trimBlanks (' ' :: ds) = ds := trimBlanks_plain hp
  have ht' : trimBlanks (' ' :: es) = es := trimBlanks_plain hp'
  have hs : (' ' :: (ds ++ ',' :: ' ' :: es)).splitOn ',' = [' ' :: ds, ' ' :: es] := by
    rw [← List.cons_append, List.splitOn_append_cons_self_of_not_mem (comma_not_mem_operand hp),
      List.splitOn_eq_singleton (comma_not_mem_operand hp')]
  have hl : trimBlanks (' ' :: (ds ++ ',' :: ' ' :: es)) = ds ++ ',' :: ' ' :: es := by
    refine trimBlanks_eq (cs := ds ++ ',' :: ' ' :: es) ?_ ?_
    · obtain ⟨c, ds, rfl⟩ := List.exists_cons_of_ne_nil hne
      simpa using (isPlain_iff.1 (hp c (by simp))).1
    · intro ch hc
      rw [List.getLast?_append_of_ne_nil _ (by simp), List.getLast?_cons_cons,
        List.getLast?_cons_of_ne_nil hne'] at hc
      exact (isPlain_iff.1 (hp' ch (List.mem_of_getLast? hc))).1
  simp [parseOperands, hs, ht, ht', hl, hne, h, h']

/-- A comment changes nothing (R72). -/
theorem assembleLine_comment {line : List Char} (comment : List Char) (h : ';' ∉ line) :
    assembleLine (line ++ ';' :: comment) = assembleLine line := by
  have hp : ∀ ch ∈ line, (ch != ';') = true := fun ch hc => by
    simpa using fun e : ch = ';' => h (e ▸ hc)
  simp [assembleLine, List.takeWhile_append_of_pos hp, List.takeWhile_eq_self_iff.2 hp]

/-- A mnemonic with no operand, and no comment. -/
theorem assembleLine_mnemonic {m : List Char} (hm : m ≠ []) (hall : m.all isPlain = true) :
    assembleLine m = assembleForm m [] := by
  have hp : ∀ ch ∈ m, isPlain ch = true := List.all_eq_true.1 hall
  have htake : m.takeWhile (fun ch => ch != ';') = m := by
    rw [List.takeWhile_eq_self_iff]
    exact fun ch h => by simpa using (isPlain_iff.1 (hp ch h)).2.2
  have hb : m.takeWhile (fun ch => !isBlank ch) = m := by
    rw [List.takeWhile_eq_self_iff]
    exact fun ch h => by simp [(isPlain_iff.1 (hp ch h)).1]
  have hd : m.dropWhile (fun ch => !isBlank ch) = [] := by
    rw [List.dropWhile_eq_nil_iff]
    exact fun ch h => by simp [(isPlain_iff.1 (hp ch h)).1]
  simp [assembleLine, htake, trimBlanks_plain hp, hb, hd, hm,
    show parseOperands [] = some [] from rfl]

/-- A mnemonic, a blank and one operand. -/
theorem assembleLine_one {m ds : List Char} {n : Nat} (hm : m ≠ [])
    (hall : m.all isPlain = true) (h : parseNumber ds = some n) :
    assembleLine (m ++ ' ' :: ds) = assembleForm m [n] := by
  obtain ⟨hne, hd⟩ := parseNumber_plain h
  refine assembleLine_eq hm (List.all_eq_true.1 hall) (fun ch hc => (isPlain_iff.1 (hd ch hc)).2.2)
    ?_ (parseOperands_one h)
  intro ch hc
  rw [List.getLast?_cons_of_ne_nil hne] at hc
  exact (isPlain_iff.1 (hd ch (List.mem_of_getLast? hc))).1

/-- A mnemonic, a blank and two operands, separated by a comma and a blank. -/
theorem assembleLine_two {m ds es : List Char} {n k : Nat} (hm : m ≠ [])
    (hall : m.all isPlain = true) (h : parseNumber ds = some n)
    (h' : parseNumber es = some k) :
    assembleLine (m ++ ' ' :: (ds ++ ',' :: ' ' :: es)) = assembleForm m [n, k] := by
  obtain ⟨hne, hd⟩ := parseNumber_plain h
  obtain ⟨hne', hd'⟩ := parseNumber_plain h'
  refine assembleLine_eq hm (List.all_eq_true.1 hall) ?_ ?_ (parseOperands_two h h')
  · intro ch hc
    simp only [List.mem_append, List.mem_cons] at hc
    rcases hc with hc | rfl | rfl | hc
    · exact (isPlain_iff.1 (hd ch hc)).2.2
    · decide
    · decide
    · exact (isPlain_iff.1 (hd' ch hc)).2.2
  · intro ch hc
    rw [List.getLast?_cons_of_ne_nil (by simp), List.getLast?_append_of_ne_nil _ (by simp),
      List.getLast?_cons_cons, List.getLast?_cons_of_ne_nil hne'] at hc
    exact (isPlain_iff.1 (hd' ch (List.mem_of_getLast? hc))).1

end Sys2Proof.Machine
end

