-- ==== Sys2Proof/Laws/Memory.lean ====
section
/-! SUPPORT. The laws of one buffer: read after write, the canonical form, and the packed accessors
`get` and `set`. -/

namespace Sys2Proof.Machine

/-! ### Bytes -/

@[simp] theorem Memory.read_nil (k : Nat) : Memory.read [] k = 0 := rfl

theorem Memory.read_cons (a : Nat) (v : Byte) (rest : Memory) (k : Nat) :
    Memory.read ((a, v) :: rest) k = if a = k then v else Memory.read rest k := rfl

theorem Memory.read_of_rising {m : Memory} {low k : Nat} (h : Memory.rising low m = true)
    (hk : k < low) : m.read k = 0 := by
  induction m generalizing low with
  | nil => rfl
  | cons c rest ih =>
    obtain ⟨a, v⟩ := c
    simp only [Memory.rising, Bool.and_eq_true, decide_eq_true_eq] at h
    rw [Memory.read_cons, if_neg (by omega)]
    exact ih h.2 (by omega)

theorem Memory.rising_mono {m : Memory} {low low' : Nat} (h : Memory.rising low m = true)
    (hl : low' ≤ low) : Memory.rising low' m = true := by
  cases m with
  | nil => rfl
  | cons c rest =>
    simp only [Memory.rising, Bool.and_eq_true, decide_eq_true_eq] at h ⊢
    exact ⟨by omega, h.2⟩

theorem Memory.read_put_same {k : Nat} {v : Byte} {rest : Memory} (h : rest.read k = 0) :
    Memory.read (Memory.put k v rest) k = v := by
  unfold Memory.put Memory.unlisted
  split
  · simp_all
  · simp [Memory.read_cons]

theorem Memory.read_put_other {k j : Nat} (v : Byte) (rest : Memory) (h : j ≠ k) :
    Memory.read (Memory.put k v rest) j = rest.read j := by
  unfold Memory.put
  split
  · rfl
  · rw [Memory.read_cons, if_neg (Ne.symm h)]

/-- A read of another byte than the written one gives what it gave before. -/
theorem Memory.read_write_other (m : Memory) {k j : Nat} (v : Byte) (h : j ≠ k) :
    (m.write k v).read j = m.read j := by
  induction m with
  | nil => exact Memory.read_put_other v [] h
  | cons c rest ih =>
    obtain ⟨a, b⟩ := c
    simp only [Memory.write]
    split
    · exact Memory.read_put_other v _ h
    · split
      · rw [Memory.read_put_other v _ h, Memory.read_cons, if_neg (by omega)]
      · rw [Memory.read_cons, Memory.read_cons, ih]

theorem Memory.read_write_same_of_rising {m : Memory} {low : Nat} (k : Nat) (v : Byte)
    (h : Memory.rising low m = true) : (m.write k v).read k = v := by
  induction m generalizing low with
  | nil => exact Memory.read_put_same rfl
  | cons c rest ih =>
    obtain ⟨a, b⟩ := c
    simp only [Memory.rising, Bool.and_eq_true, decide_eq_true_eq] at h
    simp only [Memory.write]
    split
    · refine Memory.read_put_same ?_
      rw [Memory.read_cons, if_neg (by omega)]
      exact Memory.read_of_rising h.2 (by omega)
    · split
      · refine Memory.read_put_same (Memory.read_of_rising h.2 (by omega))
      · rw [Memory.read_cons, if_neg (by omega)]
        exact ih h.2

theorem Memory.rising_put {k low : Nat} {v : Byte} {rest : Memory} (hk : low ≤ k)
    (h : Memory.rising (k + 1) rest = true) : Memory.rising low (Memory.put k v rest) = true := by
  unfold Memory.put
  split
  · exact Memory.rising_mono h (by omega)
  · simpa [Memory.rising] using ⟨hk, h⟩

theorem Memory.rising_write {m : Memory} {low : Nat} (k : Nat) (v : Byte)
    (h : Memory.rising low m = true) : Memory.rising (min low k) (m.write k v) = true := by
  induction m generalizing low with
  | nil => exact Memory.rising_put (by omega) rfl
  | cons c rest ih =>
    obtain ⟨a, b⟩ := c
    simp only [Memory.rising, Bool.and_eq_true, decide_eq_true_eq] at h
    simp only [Memory.write]
    split
    · refine Memory.rising_put (by omega) ?_
      simp only [Memory.rising, Bool.and_eq_true, decide_eq_true_eq]
      exact ⟨by omega, h.2⟩
    · split
      · exact Memory.rising_put (by omega) (Memory.rising_mono h.2 (by omega))
      · simp only [Memory.rising, Bool.and_eq_true, decide_eq_true_eq]
        exact ⟨by omega, Memory.rising_mono (ih h.2) (by omega)⟩

theorem Memory.wf_nil (n : Nat) : Memory.wf n [] = true := rfl

theorem Memory.wf_iff {n : Nat} {m : Memory} :
    Memory.wf n m = true ↔
      Memory.rising 0 m = true ∧ ∀ c ∈ m, c.1 < n ∧ c.2 ≠ Memory.unlisted := by
  simp [Memory.wf]

theorem Memory.mem_put {k : Nat} {v : Byte} {rest : Memory} {c : Host.Cell}
    (h : c ∈ Memory.put k v rest) : c ∈ rest ∨ (c = (k, v) ∧ v ≠ Memory.unlisted) := by
  unfold Memory.put at h
  split at h
  · exact .inl h
  · next hv =>
    rcases List.mem_cons.mp h with h | h
    · exact .inr ⟨h, hv⟩
    · exact .inl h

theorem Memory.mem_write {m : Memory} {k : Nat} {v : Byte} {c : Host.Cell}
    (h : c ∈ m.write k v) : c ∈ m ∨ (c = (k, v) ∧ v ≠ Memory.unlisted) := by
  induction m with
  | nil => exact Memory.mem_put h
  | cons d rest ih =>
    obtain ⟨a, b⟩ := d
    simp only [Memory.write] at h
    split at h
    · exact Memory.mem_put h
    · split at h
      · exact (Memory.mem_put h).imp_left (List.mem_cons_of_mem _)
      · rcases List.mem_cons.mp h with h | h
        · exact .inl (h ▸ List.mem_cons_self)
        · exact (ih h).imp_left (List.mem_cons_of_mem _)

/-- A write inside the buffer keeps the canonical form. -/
theorem Memory.wf_write {n : Nat} {m : Memory} {k : Nat} (v : Byte) (hm : Memory.wf n m = true)
    (hk : k < n) : Memory.wf n (m.write k v) = true := by
  rw [Memory.wf_iff] at hm ⊢
  refine ⟨Memory.rising_mono (Memory.rising_write k v hm.1) (by omega), fun c hc => ?_⟩
  rcases Memory.mem_write hc with hc | ⟨rfl, hv⟩
  · exact hm.2 c hc
  · exact ⟨hk, hv⟩

/-- Read after write. -/
theorem Memory.read_write_same {n : Nat} {m : Memory} (k : Nat) (v : Byte)
    (hm : Memory.wf n m = true) : (m.write k v).read k = v :=
  Memory.read_write_same_of_rising k v (Memory.wf_iff.mp hm).1

theorem Memory.read_write {n : Nat} {m : Memory} (k j : Nat) (v : Byte)
    (hm : Memory.wf n m = true) : (m.write k v).read j = if j = k then v else m.read j := by
  split
  · next h => rw [h, Memory.read_write_same k v hm]
  · next h => exact Memory.read_write_other m v h

/-- A byte that no entry can list reads as an unlisted one. -/
theorem Memory.read_ge {n : Nat} {m : Memory} (hm : Memory.wf n m = true) {k : Nat} (hk : n ≤ k) :
    m.read k = 0 := by
  have h := (Memory.wf_iff.mp hm).2
  clear hm
  induction m with
  | nil => rfl
  | cons c rest ih =>
    obtain ⟨a, v⟩ := c
    have ha := (h (a, v) List.mem_cons_self).1
    rw [Memory.read_cons, if_neg (by simp only at ha; omega)]
    exact ih fun c hc => h c (List.mem_cons_of_mem _ hc)

theorem Memory.ext_of_rising {m m' : Memory} {low : Nat}
    (h : Memory.rising low m = true) (h' : Memory.rising low m' = true)
    (hv : ∀ c ∈ m, c.2 ≠ Memory.unlisted) (hv' : ∀ c ∈ m', c.2 ≠ Memory.unlisted)
    (hr : ∀ k, m.read k = m'.read k) : m = m' := by
  induction m generalizing m' low with
  | nil =>
    cases m' with
    | nil => rfl
    | cons c rest =>
      obtain ⟨a, v⟩ := c
      have := hr a
      simp only [Memory.read_nil, Memory.read_cons, if_true] at this
      exact absurd this.symm (hv' (a, v) List.mem_cons_self)
  | cons c rest ih =>
    obtain ⟨a, v⟩ := c
    cases m' with
    | nil =>
      have := hr a
      simp only [Memory.read_nil, Memory.read_cons, if_true] at this
      exact absurd this (hv (a, v) List.mem_cons_self)
    | cons c' rest' =>
      obtain ⟨a', v'⟩ := c'
      simp only [Memory.rising, Bool.and_eq_true, decide_eq_true_eq] at h h'
      have haa : a = a' := by
        rcases Nat.lt_trichotomy a a' with hlt | heq | hgt
        · have := hr a
          rw [Memory.read_cons, Memory.read_cons, if_pos rfl, if_neg (by omega),
            Memory.read_of_rising h'.2 (by omega)] at this
          exact absurd this (hv (a, v) List.mem_cons_self)
        · exact heq
        · have := hr a'
          rw [Memory.read_cons, Memory.read_cons, if_neg (by omega), if_pos rfl,
            Memory.read_of_rising h.2 (by omega)] at this
          exact absurd this.symm (hv' (a', v') List.mem_cons_self)
      subst haa
      have hvv : v = v' := by simpa [Memory.read_cons] using hr a
      subst hvv
      congr 1
      refine ih h.2 h'.2 (fun c hc => hv c (List.mem_cons_of_mem _ hc))
        (fun c hc => hv' c (List.mem_cons_of_mem _ hc)) fun k => ?_
      by_cases hk : a = k
      · rw [Memory.read_of_rising h.2 (by omega), Memory.read_of_rising h'.2 (by omega)]
      · simpa [Memory.read_cons, hk] using hr k

/-- Equal buffers are equal data: canonical buffers that read the same are the same list. -/
theorem Memory.ext {n : Nat} {m m' : Memory} (h : Memory.wf n m = true)
    (h' : Memory.wf n m' = true) (hr : ∀ k, k < n → m.read k = m'.read k) : m = m' := by
  have hm := Memory.wf_iff.mp h
  have hm' := Memory.wf_iff.mp h'
  refine Memory.ext_of_rising hm.1 hm'.1 (fun c hc => (hm.2 c hc).2) (fun c hc => (hm'.2 c hc).2)
    fun k => ?_
  by_cases hk : k < n
  · exact hr k hk
  · rw [Memory.read_ge h (by omega), Memory.read_ge h' (by omega)]

theorem Memory.fill_zero (m : Memory) (f : Nat → Byte) : m.fill 0 f = m := rfl

theorem Memory.fill_succ (m : Memory) (n : Nat) (f : Nat → Byte) :
    m.fill (n + 1) f = (m.fill n f).write n (f n) := by
  simp [Memory.fill, List.range_succ]

/-- A fill inside the buffer keeps the canonical form. -/
theorem Memory.wf_fill {n : Nat} {m : Memory} (f : Nat → Byte) (hm : Memory.wf n m = true)
    {j : Nat} (hj : j ≤ n) : Memory.wf n (m.fill j f) = true := by
  induction j with
  | zero => exact hm
  | succ j ih =>
    rw [Memory.fill_succ]
    exact Memory.wf_write _ (ih (by omega)) (by omega)

/-- What a filled buffer reads. -/
theorem Memory.read_fill {n : Nat} {m : Memory} (f : Nat → Byte) (hm : Memory.wf n m = true)
    {j : Nat} (hj : j ≤ n) (k : Nat) :
    (m.fill j f).read k = if k < j then f k else m.read k := by
  induction j with
  | zero => simp [Memory.fill_zero]
  | succ j ih =>
    rw [Memory.fill_succ, Memory.read_write j k _ (Memory.wf_fill f hm (by omega)),
      ih (by omega)]
    by_cases h1 : k = j
    · simp [h1]
    · have : k < j + 1 ↔ k < j := by omega
      simp [h1, this]

/-- A whole-buffer fill leaves nothing of the old content. -/
theorem Memory.fill_eq_ofBytes {n : Nat} {m : Memory} (f : Nat → Byte)
    (hm : Memory.wf n m = true) : m.fill n f = Memory.ofBytes n f :=
  Memory.ext (Memory.wf_fill f hm le_rfl) (Memory.wf_fill f (Memory.wf_nil n) le_rfl)
    fun k hk => by
      simp [Memory.ofBytes, Memory.read_fill f hm le_rfl,
        Memory.read_fill f (Memory.wf_nil n) le_rfl, hk]

/-- Copying a buffer over another gives the buffer itself. -/
theorem Memory.fill_read {n : Nat} {m cur : Memory} (hm : Memory.wf n m = true)
    (hc : Memory.wf n cur = true) : m.fill n cur.read = cur :=
  Memory.ext (Memory.wf_fill _ hm le_rfl) hc fun k hk => by
    simp [Memory.read_fill _ hm le_rfl, hk]

/-! ### Packed ages -/

theorem Bpv.bits_cases (b : Bpv) : b.bits = 1 ∨ b.bits = 2 ∨ b.bits = 4 ∨ b.bits = 8 := by
  cases b <;> simp [Bpv.bits]

theorem getLsbD_ageMask (c : Config) (i : Nat) :
    c.ageMask.getLsbD i = decide (i < c.bpv.bits) := by
  have h := Bpv.bits_cases c.bpv
  rw [Config.ageMask, BitVec.getLsbD_ofNat, Nat.testBit_two_pow_sub_one]
  by_cases hi : i < c.bpv.bits
  · have : i < 8 := by omega
    simp [hi, this]
  · simp [hi]

theorem getLsbD_unpackAge (c : Config) (byte : Byte) (sh i : Nat) :
    (unpackAge c byte sh).getLsbD i = (byte.getLsbD (sh + i) && decide (i < c.bpv.bits)) := by
  simp [unpackAge, getLsbD_ageMask]

theorem getLsbD_packAge (c : Config) (byte v : Byte) (sh i : Nat) :
    (packAge c byte sh v).getLsbD i =
      if sh ≤ i ∧ i < sh + c.bpv.bits ∧ i < 8 then v.getLsbD (i - sh) else byte.getLsbD i := by
  simp only [packAge, BitVec.getLsbD_or, BitVec.getLsbD_and, BitVec.getLsbD_not,
    BitVec.getLsbD_shiftLeft, getLsbD_ageMask]
  by_cases h8 : i < 8
  · by_cases hs : sh ≤ i
    · by_cases hb : i - sh < c.bpv.bits
      · have h : sh ≤ i ∧ i < sh + c.bpv.bits ∧ i < 8 := ⟨hs, by omega, h8⟩
        simp [h8, hs, hb, h, Nat.not_lt.mpr hs]
      · have h : ¬(sh ≤ i ∧ i < sh + c.bpv.bits ∧ i < 8) := by omega
        rw [if_neg h]
        simp [h8, hb]
    · have h : ¬(sh ≤ i ∧ i < sh + c.bpv.bits ∧ i < 8) := by omega
      rw [if_neg h]
      simp [h8, Nat.lt_of_not_le hs]
  · have h : ¬(sh ≤ i ∧ i < sh + c.bpv.bits ∧ i < 8) := by omega
    rw [if_neg h]
    simp [h8, BitVec.getLsbD_of_ge byte i (Nat.le_of_not_lt h8)]

/-- Where a cell's slot lies: inside one byte, on a multiple of BPV (R51, R53). -/
theorem bitShift_lt (c : Config) (idx : Nat) : bitShift c idx + c.bpv.bits ≤ 8 := by
  unfold bitShift Config.valuesPerByte
  cases c.bpv <;> simp [Bpv.bits] <;> omega

theorem valuesPerByte_pos (c : Config) : 0 < c.valuesPerByte := by
  unfold Config.valuesPerByte
  cases c.bpv <;> simp [Bpv.bits]

/-- Two cells of one byte have slots that do not overlap. -/
theorem bitShift_disjoint (c : Config) {i j : Nat} (hij : i ≠ j)
    (hb : byteIndex c i = byteIndex c j) :
    bitShift c i + c.bpv.bits ≤ bitShift c j ∨ bitShift c j + c.bpv.bits ≤ bitShift c i := by
  unfold bitShift
  unfold byteIndex at hb
  have hne : i % c.valuesPerByte ≠ j % c.valuesPerByte := fun h => hij (by
    rw [← Nat.div_add_mod i c.valuesPerByte, ← Nat.div_add_mod j c.valuesPerByte, hb, h])
  generalize i % c.valuesPerByte = a at *
  generalize j % c.valuesPerByte = b at *
  rcases Nat.lt_or_gt_of_ne hne with h | h
  · left
    calc a * c.bpv.bits + c.bpv.bits = (a + 1) * c.bpv.bits := by ring
      _ ≤ b * c.bpv.bits := Nat.mul_le_mul_right _ h
  · right
    calc b * c.bpv.bits + c.bpv.bits = (b + 1) * c.bpv.bits := by ring
      _ ≤ a * c.bpv.bits := Nat.mul_le_mul_right _ h

/-- A slot below `storeBytes * valuesPerByte` lies in a byte of the buffer: the cells, and the
padding slots after them (R13, R38). -/
theorem byteIndex_lt_of_slot {c : Config} {idx : Nat} (h : idx < c.storeBytes * c.valuesPerByte) :
    byteIndex c idx < c.storeBytes :=
  Nat.div_lt_of_lt_mul (by rwa [Nat.mul_comm])

theorem cells_le_slots (c : Config) : c.cells ≤ c.storeBytes * c.valuesPerByte := by
  unfold Config.storeBytes Config.valuesPerByte
  cases c.bpv <;> simp [Bpv.bits] <;> omega

/-- A cell lies in a byte of the buffer (R13). -/
theorem byteIndex_lt {c : Config} {idx : Nat} (h : idx < c.cells) :
    byteIndex c idx < c.storeBytes :=
  byteIndex_lt_of_slot (Nat.lt_of_lt_of_le h (cells_le_slots c))

theorem unpack_pack_same (c : Config) (byte v : Byte) {sh : Nat} (h : sh + c.bpv.bits ≤ 8) :
    unpackAge c (packAge c byte sh v) sh = v &&& c.ageMask := by
  apply BitVec.eq_of_getLsbD_eq
  intro i _
  rw [getLsbD_unpackAge, getLsbD_packAge, BitVec.getLsbD_and, getLsbD_ageMask]
  by_cases hi : i < c.bpv.bits
  · rw [if_pos (by omega), Nat.add_sub_cancel_left]
  · simp [hi]

theorem unpack_pack_other (c : Config) (byte v : Byte) {sh sh' : Nat}
    (h : sh + c.bpv.bits ≤ sh' ∨ sh' + c.bpv.bits ≤ sh) :
    unpackAge c (packAge c byte sh v) sh' = unpackAge c byte sh' := by
  apply BitVec.eq_of_getLsbD_eq
  intro i _
  rw [getLsbD_unpackAge, getLsbD_unpackAge, getLsbD_packAge]
  by_cases hi : i < c.bpv.bits
  · rw [if_neg (by omega)]
  · simp [hi]

/-- `get` after `set` of the same cell: the value masked to BPV bits (R50). -/
theorem getCell_setCell_same {c : Config} {n : Nat} {m : Memory} (hm : Memory.wf n m = true)
    (idx : Nat) (v : Byte) : getCell c (setCell c m idx v) idx = v &&& c.ageMask := by
  rw [getCell, setCell, Memory.read_write_same _ _ hm, unpack_pack_same _ _ _ (bitShift_lt c idx)]

/-- `set` alters no other slot (R50, R55). -/
theorem getCell_setCell_other {c : Config} {n : Nat} {m : Memory} (hm : Memory.wf n m = true)
    {idx j : Nat} (hj : j ≠ idx) (v : Byte) :
    getCell c (setCell c m idx v) j = getCell c m j := by
  unfold getCell setCell
  by_cases hb : byteIndex c j = byteIndex c idx
  · rw [hb, Memory.read_write_same _ _ hm,
      unpack_pack_other _ _ _ (bitShift_disjoint c (Ne.symm hj) hb.symm)]
  · rw [Memory.read_write_other _ _ hb]

/-- `set` of a cell keeps the canonical form. -/
theorem wf_setCell {c : Config} {m : Memory} (hm : Memory.wf c.storeBytes m = true) {idx : Nat}
    (h : idx < c.cells) (v : Byte) : Memory.wf c.storeBytes (setCell c m idx v) = true :=
  Memory.wf_write _ hm (byteIndex_lt h)

/-- Two buffers with the same bytes hold the same ages. -/
theorem getCell_congr {c : Config} {m m' : Memory} {idx : Nat}
    (h : m.read (byteIndex c idx) = m'.read (byteIndex c idx)) :
    getCell c m idx = getCell c m' idx := by
  rw [getCell, getCell, h]

theorem ageMask_toNat (c : Config) : c.ageMask.toNat = c.maxAge := by
  unfold Config.ageMask Config.maxAge
  cases c.bpv <;> rfl

/-- Every stored value is in [0, MAX_AGE], whatever the buffer holds (R39). -/
theorem getCell_le_maxAge (c : Config) (m : Memory) (idx : Nat) :
    (getCell c m idx).toNat ≤ c.maxAge := by
  rw [getCell, unpackAge, BitVec.toNat_and, ← ageMask_toNat]
  exact Nat.and_le_right

/-- A value in range is not changed by the mask (R50). -/
theorem and_ageMask_of_le {c : Config} {v : Byte} (h : v.toNat ≤ c.maxAge) :
    v &&& c.ageMask = v := by
  apply BitVec.eq_of_toNat_eq
  rw [BitVec.toNat_and, ageMask_toNat, Config.maxAge, Nat.and_two_pow_sub_one_eq_mod]
  refine Nat.mod_eq_of_lt ?_
  have : 0 < 2 ^ c.bpv.bits := Nat.two_pow_pos _
  unfold Config.maxAge at h
  omega

end Sys2Proof.Machine
end

