-- ==== Sys2Proof/Laws/State.lean ====
section
/-! SUPPORT. One lemma per field of State for each shared update of it. -/

namespace Sys2Proof.Machine

@[simp] theorem Buf.other_other (b : Buf) : b.other.other = b := by cases b <;> rfl
theorem Buf.other_ne (b : Buf) : b.other ≠ b := by cases b <;> decide
theorem Buf.eq_other_of_ne {a b : Buf} (h : a ≠ b) : a = b.other := by
  cases a <;> cases b <;> first | rfl | exact absurd rfl h
theorem Buf.other_bit (b : Buf) : b.other.bit = ~~~b.bit := by cases b <;> rfl

/-! ### setMem -/

@[simp] theorem State.setMem_config (s : State) (b : Buf) (m : Memory) :
    (s.setMem b m).config = s.config := by cases b <;> rfl
@[simp] theorem State.setMem_active (s : State) (b : Buf) (m : Memory) :
    (s.setMem b m).active = s.active := by cases b <;> rfl
@[simp] theorem State.setMem_faulted (s : State) (b : Buf) (m : Memory) :
    (s.setMem b m).faulted = s.faulted := by cases b <;> rfl
@[simp] theorem State.setMem_faultCode (s : State) (b : Buf) (m : Memory) :
    (s.setMem b m).faultCode = s.faultCode := by cases b <;> rfl
@[simp] theorem State.setMem_faultInfo (s : State) (b : Buf) (m : Memory) :
    (s.setMem b m).faultInfo = s.faultInfo := by cases b <;> rfl
@[simp] theorem State.setMem_busy (s : State) (b : Buf) (m : Memory) :
    (s.setMem b m).busy = s.busy := by cases b <;> rfl
@[simp] theorem State.setMem_cmds (s : State) (b : Buf) (m : Memory) :
    (s.setMem b m).cmds = s.cmds := by cases b <;> rfl
@[simp] theorem State.setMem_outside (s : State) (b : Buf) (m : Memory) :
    (s.setMem b m).outside = s.outside := by cases b <;> rfl
@[simp] theorem State.setMem_responses (s : State) (b : Buf) (m : Memory) :
    (s.setMem b m).responses = s.responses := by cases b <;> rfl
@[simp] theorem State.setMem_emitted (s : State) (b : Buf) (m : Memory) :
    (s.setMem b m).emitted = s.emitted := by cases b <;> rfl
@[simp] theorem State.setMem_pastResponses (s : State) (b : Buf) (m : Memory) :
    (s.setMem b m).pastResponses = s.pastResponses := by cases b <;> rfl
@[simp] theorem State.setMem_pastEmitted (s : State) (b : Buf) (m : Memory) :
    (s.setMem b m).pastEmitted = s.pastEmitted := by cases b <;> rfl
@[simp] theorem State.setMem_draws (s : State) (b : Buf) (m : Memory) :
    (s.setMem b m).draws = s.draws := by cases b <;> rfl
@[simp] theorem State.mem_setMem_same (s : State) (b : Buf) (m : Memory) :
    (s.setMem b m).mem b = m := by cases b <;> rfl
@[simp] theorem State.mem_setMem_other (s : State) (b : Buf) (m : Memory) :
    (s.setMem b m).mem b.other = s.mem b.other := by cases b <;> rfl
theorem State.mem_setMem_ne (s : State) {b b' : Buf} (h : b' ≠ b) (m : Memory) :
    (s.setMem b m).mem b' = s.mem b' := by
  rw [Buf.eq_other_of_ne h, State.mem_setMem_other]
@[simp] theorem State.setMem_mem (s : State) (b : Buf) : s.setMem b (s.mem b) = s := by
  cases b <;> rfl
@[simp] theorem State.cur_setMem_active (s : State) (m : Memory) :
    (s.setMem s.active m).cur = m := by simp [State.cur]
theorem State.mem_ext {s t : State} (h0 : t.b0 = s.b0) (h1 : t.b1 = s.b1) (b : Buf) :
    t.mem b = s.mem b := by cases b <;> simp [State.mem, h0, h1]

/-! ### raiseFault -/

@[simp] theorem State.raiseFault_config (s : State) (c : FaultCode) (i : Word) :
    (s.raiseFault c i).config = s.config := by unfold State.raiseFault; split <;> rfl
@[simp] theorem State.raiseFault_b0 (s : State) (c : FaultCode) (i : Word) :
    (s.raiseFault c i).b0 = s.b0 := by unfold State.raiseFault; split <;> rfl
@[simp] theorem State.raiseFault_b1 (s : State) (c : FaultCode) (i : Word) :
    (s.raiseFault c i).b1 = s.b1 := by unfold State.raiseFault; split <;> rfl
@[simp] theorem State.raiseFault_active (s : State) (c : FaultCode) (i : Word) :
    (s.raiseFault c i).active = s.active := by unfold State.raiseFault; split <;> rfl
@[simp] theorem State.raiseFault_busy (s : State) (c : FaultCode) (i : Word) :
    (s.raiseFault c i).busy = s.busy := by unfold State.raiseFault; split <;> rfl
@[simp] theorem State.raiseFault_cmds (s : State) (c : FaultCode) (i : Word) :
    (s.raiseFault c i).cmds = s.cmds := by unfold State.raiseFault; split <;> rfl
@[simp] theorem State.raiseFault_outside (s : State) (c : FaultCode) (i : Word) :
    (s.raiseFault c i).outside = s.outside := by unfold State.raiseFault; split <;> rfl
@[simp] theorem State.raiseFault_responses (s : State) (c : FaultCode) (i : Word) :
    (s.raiseFault c i).responses = s.responses := by unfold State.raiseFault; split <;> rfl
@[simp] theorem State.raiseFault_emitted (s : State) (c : FaultCode) (i : Word) :
    (s.raiseFault c i).emitted = s.emitted := by unfold State.raiseFault; split <;> rfl
@[simp] theorem State.raiseFault_pastResponses (s : State) (c : FaultCode) (i : Word) :
    (s.raiseFault c i).pastResponses = s.pastResponses := by unfold State.raiseFault; split <;> rfl
@[simp] theorem State.raiseFault_pastEmitted (s : State) (c : FaultCode) (i : Word) :
    (s.raiseFault c i).pastEmitted = s.pastEmitted := by unfold State.raiseFault; split <;> rfl
@[simp] theorem State.raiseFault_draws (s : State) (c : FaultCode) (i : Word) :
    (s.raiseFault c i).draws = s.draws := by unfold State.raiseFault; split <;> rfl
@[simp] theorem State.raiseFault_mem (s : State) (c : FaultCode) (i : Word) (b : Buf) :
    (s.raiseFault c i).mem b = s.mem b := State.mem_ext (by simp) (by simp) b
@[simp] theorem State.raiseFault_faulted (s : State) (c : FaultCode) (i : Word) :
    (s.raiseFault c i).faulted = true := by
  unfold State.raiseFault; split <;> simp_all
theorem State.raiseFault_faultCode {s : State} (h : s.faulted = false) (c : FaultCode) (i : Word) :
    (s.raiseFault c i).faultCode = c.bits := by simp [State.raiseFault, h]
theorem State.raiseFault_faultInfo {s : State} (h : s.faulted = false) (c : FaultCode) (i : Word) :
    (s.raiseFault c i).faultInfo = i := by simp [State.raiseFault, h]
/-- Only the first fault since reset is recorded (R40). -/
theorem State.raiseFault_of_faulted {s : State} (h : s.faulted = true) (c : FaultCode) (i : Word) :
    s.raiseFault c i = s := by simp [State.raiseFault, h]

/-! ### startTransfers -/

@[simp] theorem State.startTransfers_config (s : State) (i : Instr) (ts : List Transfer) :
    (s.startTransfers i ts).config = s.config := rfl
@[simp] theorem State.startTransfers_b0 (s : State) (i : Instr) (ts : List Transfer) :
    (s.startTransfers i ts).b0 = s.b0 := rfl
@[simp] theorem State.startTransfers_b1 (s : State) (i : Instr) (ts : List Transfer) :
    (s.startTransfers i ts).b1 = s.b1 := rfl
@[simp] theorem State.startTransfers_active (s : State) (i : Instr) (ts : List Transfer) :
    (s.startTransfers i ts).active = s.active := rfl
@[simp] theorem State.startTransfers_faulted (s : State) (i : Instr) (ts : List Transfer) :
    (s.startTransfers i ts).faulted = s.faulted := rfl
@[simp] theorem State.startTransfers_faultCode (s : State) (i : Instr) (ts : List Transfer) :
    (s.startTransfers i ts).faultCode = s.faultCode := rfl
@[simp] theorem State.startTransfers_faultInfo (s : State) (i : Instr) (ts : List Transfer) :
    (s.startTransfers i ts).faultInfo = s.faultInfo := rfl
@[simp] theorem State.startTransfers_busy (s : State) (i : Instr) (ts : List Transfer) :
    (s.startTransfers i ts).busy = some { cmd := i, waiting := ts } := rfl
@[simp] theorem State.startTransfers_cmds (s : State) (i : Instr) (ts : List Transfer) :
    (s.startTransfers i ts).cmds = s.cmds := rfl
@[simp] theorem State.startTransfers_outside (s : State) (i : Instr) (ts : List Transfer) :
    (s.startTransfers i ts).outside = s.outside := rfl
@[simp] theorem State.startTransfers_responses (s : State) (i : Instr) (ts : List Transfer) :
    (s.startTransfers i ts).responses = s.responses := rfl
@[simp] theorem State.startTransfers_emitted (s : State) (i : Instr) (ts : List Transfer) :
    (s.startTransfers i ts).emitted = s.emitted := rfl
@[simp] theorem State.startTransfers_pastResponses (s : State) (i : Instr) (ts : List Transfer) :
    (s.startTransfers i ts).pastResponses = s.pastResponses := rfl
@[simp] theorem State.startTransfers_pastEmitted (s : State) (i : Instr) (ts : List Transfer) :
    (s.startTransfers i ts).pastEmitted = s.pastEmitted := rfl
@[simp] theorem State.startTransfers_draws (s : State) (i : Instr) (ts : List Transfer) :
    (s.startTransfers i ts).draws = s.draws := rfl

/-! ### tick -/

@[simp] theorem State.tick_config (s : State) :
    s.tick.config = s.config := rfl
@[simp] theorem State.tick_b0 (s : State) :
    s.tick.b0 = s.b0 := rfl
@[simp] theorem State.tick_b1 (s : State) :
    s.tick.b1 = s.b1 := rfl
@[simp] theorem State.tick_active (s : State) :
    s.tick.active = s.active := rfl
@[simp] theorem State.tick_faulted (s : State) :
    s.tick.faulted = s.faulted := rfl
@[simp] theorem State.tick_faultCode (s : State) :
    s.tick.faultCode = s.faultCode := rfl
@[simp] theorem State.tick_faultInfo (s : State) :
    s.tick.faultInfo = s.faultInfo := rfl
@[simp] theorem State.tick_busy (s : State) :
    s.tick.busy = s.busy := rfl
@[simp] theorem State.tick_cmds (s : State) :
    s.tick.cmds = s.cmds := rfl
@[simp] theorem State.tick_outside (s : State) :
    s.tick.outside = s.outside.later := rfl
@[simp] theorem State.tick_responses (s : State) :
    s.tick.responses = s.responses := rfl
@[simp] theorem State.tick_emitted (s : State) :
    s.tick.emitted = s.emitted := rfl
@[simp] theorem State.tick_pastResponses (s : State) :
    s.tick.pastResponses = s.pastResponses := rfl
@[simp] theorem State.tick_pastEmitted (s : State) :
    s.tick.pastEmitted = s.pastEmitted := rfl
@[simp] theorem State.tick_draws (s : State) :
    s.tick.draws = s.draws := rfl

/-! ### takeWord -/

@[simp] theorem State.takeWord_config (s : State) :
    s.takeWord.config = s.config := rfl
@[simp] theorem State.takeWord_b0 (s : State) :
    s.takeWord.b0 = s.b0 := rfl
@[simp] theorem State.takeWord_b1 (s : State) :
    s.takeWord.b1 = s.b1 := rfl
@[simp] theorem State.takeWord_active (s : State) :
    s.takeWord.active = s.active := rfl
@[simp] theorem State.takeWord_faulted (s : State) :
    s.takeWord.faulted = s.faulted := rfl
@[simp] theorem State.takeWord_faultCode (s : State) :
    s.takeWord.faultCode = s.faultCode := rfl
@[simp] theorem State.takeWord_faultInfo (s : State) :
    s.takeWord.faultInfo = s.faultInfo := rfl
@[simp] theorem State.takeWord_busy (s : State) :
    s.takeWord.busy = s.busy := rfl
@[simp] theorem State.takeWord_cmds (s : State) :
    s.takeWord.cmds = s.cmds.tail := rfl
@[simp] theorem State.takeWord_outside (s : State) :
    s.takeWord.outside = s.outside := rfl
@[simp] theorem State.takeWord_responses (s : State) :
    s.takeWord.responses = s.responses := rfl
@[simp] theorem State.takeWord_emitted (s : State) :
    s.takeWord.emitted = s.emitted := rfl
@[simp] theorem State.takeWord_pastResponses (s : State) :
    s.takeWord.pastResponses = s.pastResponses := rfl
@[simp] theorem State.takeWord_pastEmitted (s : State) :
    s.takeWord.pastEmitted = s.pastEmitted := rfl
@[simp] theorem State.takeWord_draws (s : State) :
    s.takeWord.draws = s.draws := rfl

/-! ### applyReset -/

@[simp] theorem State.applyReset_config (s : State) :
    s.applyReset.config = s.config := rfl
@[simp] theorem State.applyReset_b0 (s : State) :
    s.applyReset.b0 = drawnBuffer s.config s.draws .b0 := rfl
@[simp] theorem State.applyReset_b1 (s : State) :
    s.applyReset.b1 = drawnBuffer s.config s.draws .b1 := rfl
@[simp] theorem State.applyReset_active (s : State) :
    s.applyReset.active = .b0 := rfl
@[simp] theorem State.applyReset_faulted (s : State) :
    s.applyReset.faulted = false := rfl
@[simp] theorem State.applyReset_faultCode (s : State) :
    s.applyReset.faultCode = 0 := rfl
@[simp] theorem State.applyReset_faultInfo (s : State) :
    s.applyReset.faultInfo = 0 := rfl
@[simp] theorem State.applyReset_busy (s : State) :
    s.applyReset.busy = none := rfl
@[simp] theorem State.applyReset_cmds (s : State) :
    s.applyReset.cmds = s.cmds := rfl
@[simp] theorem State.applyReset_outside (s : State) :
    s.applyReset.outside = s.outside := rfl
@[simp] theorem State.applyReset_responses (s : State) :
    s.applyReset.responses = [] := rfl
@[simp] theorem State.applyReset_emitted (s : State) :
    s.applyReset.emitted = [] := rfl
@[simp] theorem State.applyReset_pastResponses (s : State) :
    s.applyReset.pastResponses = s.allResponses := rfl
@[simp] theorem State.applyReset_pastEmitted (s : State) :
    s.applyReset.pastEmitted = s.allEmitted := rfl
@[simp] theorem State.applyReset_draws (s : State) :
    s.applyReset.draws = s.draws + 1 := rfl

@[simp] theorem State.applyReset_allResponses (s : State) :
    s.applyReset.allResponses = s.allResponses := List.append_nil _
@[simp] theorem State.applyReset_allEmitted (s : State) :
    s.applyReset.allEmitted = s.allEmitted := List.append_nil _

/-! ### accepted -/

@[simp] theorem State.accepted_config (s : State) (p : InProgress) (rest : List Transfer) :
    (s.accepted p rest).config = s.config := rfl
@[simp] theorem State.accepted_b0 (s : State) (p : InProgress) (rest : List Transfer) :
    (s.accepted p rest).b0 = s.b0 := rfl
@[simp] theorem State.accepted_b1 (s : State) (p : InProgress) (rest : List Transfer) :
    (s.accepted p rest).b1 = s.b1 := rfl
@[simp] theorem State.accepted_active (s : State) (p : InProgress) (rest : List Transfer) :
    (s.accepted p rest).active = s.active := rfl
@[simp] theorem State.accepted_faulted (s : State) (p : InProgress) (rest : List Transfer) :
    (s.accepted p rest).faulted = s.faulted := rfl
@[simp] theorem State.accepted_faultCode (s : State) (p : InProgress) (rest : List Transfer) :
    (s.accepted p rest).faultCode = s.faultCode := rfl
@[simp] theorem State.accepted_faultInfo (s : State) (p : InProgress) (rest : List Transfer) :
    (s.accepted p rest).faultInfo = s.faultInfo := rfl
@[simp] theorem State.accepted_busy (s : State) (p : InProgress) (rest : List Transfer) :
    (s.accepted p rest).busy = if rest = [] then none else some { p with waiting := rest } := rfl
@[simp] theorem State.accepted_cmds (s : State) (p : InProgress) (rest : List Transfer) :
    (s.accepted p rest).cmds = s.cmds := rfl
@[simp] theorem State.accepted_outside (s : State) (p : InProgress) (rest : List Transfer) :
    (s.accepted p rest).outside = s.outside := rfl
@[simp] theorem State.accepted_responses (s : State) (p : InProgress) (rest : List Transfer) :
    (s.accepted p rest).responses = s.responses := rfl
@[simp] theorem State.accepted_emitted (s : State) (p : InProgress) (rest : List Transfer) :
    (s.accepted p rest).emitted = s.emitted := rfl
@[simp] theorem State.accepted_pastResponses (s : State) (p : InProgress) (rest : List Transfer) :
    (s.accepted p rest).pastResponses = s.pastResponses := rfl
@[simp] theorem State.accepted_pastEmitted (s : State) (p : InProgress) (rest : List Transfer) :
    (s.accepted p rest).pastEmitted = s.pastEmitted := rfl
@[simp] theorem State.accepted_draws (s : State) (p : InProgress) (rest : List Transfer) :
    (s.accepted p rest).draws = s.draws := rfl

/-! ### offerWord -/

@[simp] theorem State.offerWord_config (s : State) (w : Word) :
    (s.offerWord w).config = s.config := rfl
@[simp] theorem State.offerWord_b0 (s : State) (w : Word) :
    (s.offerWord w).b0 = s.b0 := rfl
@[simp] theorem State.offerWord_b1 (s : State) (w : Word) :
    (s.offerWord w).b1 = s.b1 := rfl
@[simp] theorem State.offerWord_active (s : State) (w : Word) :
    (s.offerWord w).active = s.active := rfl
@[simp] theorem State.offerWord_faulted (s : State) (w : Word) :
    (s.offerWord w).faulted = s.faulted := rfl
@[simp] theorem State.offerWord_faultCode (s : State) (w : Word) :
    (s.offerWord w).faultCode = s.faultCode := rfl
@[simp] theorem State.offerWord_faultInfo (s : State) (w : Word) :
    (s.offerWord w).faultInfo = s.faultInfo := rfl
@[simp] theorem State.offerWord_busy (s : State) (w : Word) :
    (s.offerWord w).busy = none := rfl
@[simp] theorem State.offerWord_cmds (s : State) (w : Word) :
    (s.offerWord w).cmds = w :: s.cmds := rfl
@[simp] theorem State.offerWord_outside (s : State) (w : Word) :
    (s.offerWord w).outside = s.outside.holdResetLow := rfl
@[simp] theorem State.offerWord_responses (s : State) (w : Word) :
    (s.offerWord w).responses = s.responses := rfl
@[simp] theorem State.offerWord_emitted (s : State) (w : Word) :
    (s.offerWord w).emitted = s.emitted := rfl
@[simp] theorem State.offerWord_pastResponses (s : State) (w : Word) :
    (s.offerWord w).pastResponses = s.pastResponses := rfl
@[simp] theorem State.offerWord_pastEmitted (s : State) (w : Word) :
    (s.offerWord w).pastEmitted = s.pastEmitted := rfl
@[simp] theorem State.offerWord_draws (s : State) (w : Word) :
    (s.offerWord w).draws = s.draws := rfl

/-! ### serve -/

@[simp] theorem State.serve_config (s : State) (pins : Pins) (p : InProgress) :
    (s.serve pins p).config = s.config := by unfold State.serve; split <;> (try split) <;> rfl
@[simp] theorem State.serve_b0 (s : State) (pins : Pins) (p : InProgress) :
    (s.serve pins p).b0 = s.b0 := by unfold State.serve; split <;> (try split) <;> rfl
@[simp] theorem State.serve_b1 (s : State) (pins : Pins) (p : InProgress) :
    (s.serve pins p).b1 = s.b1 := by unfold State.serve; split <;> (try split) <;> rfl
@[simp] theorem State.serve_active (s : State) (pins : Pins) (p : InProgress) :
    (s.serve pins p).active = s.active := by unfold State.serve; split <;> (try split) <;> rfl
@[simp] theorem State.serve_faulted (s : State) (pins : Pins) (p : InProgress) :
    (s.serve pins p).faulted = s.faulted := by unfold State.serve; split <;> (try split) <;> rfl
@[simp] theorem State.serve_faultCode (s : State) (pins : Pins) (p : InProgress) :
    (s.serve pins p).faultCode = s.faultCode := by unfold State.serve; split <;> (try split) <;> rfl
@[simp] theorem State.serve_faultInfo (s : State) (pins : Pins) (p : InProgress) :
    (s.serve pins p).faultInfo = s.faultInfo := by unfold State.serve; split <;> (try split) <;> rfl
@[simp] theorem State.serve_cmds (s : State) (pins : Pins) (p : InProgress) :
    (s.serve pins p).cmds = s.cmds := by unfold State.serve; split <;> (try split) <;> rfl
@[simp] theorem State.serve_outside (s : State) (pins : Pins) (p : InProgress) :
    (s.serve pins p).outside = s.outside := by unfold State.serve; split <;> (try split) <;> rfl
@[simp] theorem State.serve_pastResponses (s : State) (pins : Pins) (p : InProgress) :
    (s.serve pins p).pastResponses = s.pastResponses := by unfold State.serve; split <;> (try split) <;> rfl
@[simp] theorem State.serve_pastEmitted (s : State) (pins : Pins) (p : InProgress) :
    (s.serve pins p).pastEmitted = s.pastEmitted := by unfold State.serve; split <;> (try split) <;> rfl
@[simp] theorem State.serve_draws (s : State) (pins : Pins) (p : InProgress) :
    (s.serve pins p).draws = s.draws := by unfold State.serve; split <;> (try split) <;> rfl

/-! ### finishPass -/

@[simp] theorem State.finishPass_config (s : State) (b : Buf) (p : Pass) :
    (s.finishPass b p).config = s.config := by cases p <;> simp [State.finishPass]
@[simp] theorem State.finishPass_busy (s : State) (b : Buf) (p : Pass) :
    (s.finishPass b p).busy = s.busy := by cases p <;> simp [State.finishPass]
@[simp] theorem State.finishPass_cmds (s : State) (b : Buf) (p : Pass) :
    (s.finishPass b p).cmds = s.cmds := by cases p <;> simp [State.finishPass]
@[simp] theorem State.finishPass_outside (s : State) (b : Buf) (p : Pass) :
    (s.finishPass b p).outside = s.outside := by cases p <;> simp [State.finishPass]
@[simp] theorem State.finishPass_responses (s : State) (b : Buf) (p : Pass) :
    (s.finishPass b p).responses = s.responses := by cases p <;> simp [State.finishPass]
@[simp] theorem State.finishPass_emitted (s : State) (b : Buf) (p : Pass) :
    (s.finishPass b p).emitted = s.emitted := by cases p <;> simp [State.finishPass]
@[simp] theorem State.finishPass_pastResponses (s : State) (b : Buf) (p : Pass) :
    (s.finishPass b p).pastResponses = s.pastResponses := by cases p <;> simp [State.finishPass]
@[simp] theorem State.finishPass_pastEmitted (s : State) (b : Buf) (p : Pass) :
    (s.finishPass b p).pastEmitted = s.pastEmitted := by cases p <;> simp [State.finishPass]
@[simp] theorem State.finishPass_draws (s : State) (b : Buf) (p : Pass) :
    (s.finishPass b p).draws = s.draws := by cases p <;> simp [State.finishPass]

/-! ### reset -/

@[simp] theorem State.reset_config : State.reset.config = Config.reference := rfl
@[simp] theorem State.reset_b0 : State.reset.b0 = drawnBuffer Config.reference 0 .b0 := rfl
@[simp] theorem State.reset_b1 : State.reset.b1 = drawnBuffer Config.reference 0 .b1 := rfl
@[simp] theorem State.reset_active : State.reset.active = .b0 := rfl
@[simp] theorem State.reset_faulted : State.reset.faulted = false := rfl
@[simp] theorem State.reset_faultCode : State.reset.faultCode = 0 := rfl
@[simp] theorem State.reset_faultInfo : State.reset.faultInfo = 0 := rfl
@[simp] theorem State.reset_busy : State.reset.busy = none := rfl
@[simp] theorem State.reset_cmds : State.reset.cmds = [] := rfl
@[simp] theorem State.reset_outside : State.reset.outside = Outside.accepting := rfl
@[simp] theorem State.reset_responses : State.reset.responses = [] := rfl
@[simp] theorem State.reset_emitted : State.reset.emitted = [] := rfl
@[simp] theorem State.reset_pastResponses : State.reset.pastResponses = [] := rfl
@[simp] theorem State.reset_pastEmitted : State.reset.pastEmitted = [] := rfl
@[simp] theorem State.reset_draws : State.reset.draws = 1 := rfl

/-! ### outside -/

@[simp] theorem Outside.now_nil (p : Pins) : Outside.now { script := [], after := p } = p := rfl
@[simp] theorem Outside.later_nil (p : Pins) :
    Outside.later { script := [], after := p } = { script := [], after := p } := rfl
@[simp] theorem Outside.holdResetLow_now_reset (o : Outside) : o.holdResetLow.now.reset = false := rfl
@[simp] theorem Outside.holdResetLow_later (o : Outside) : o.holdResetLow.later = o.later := rfl

end Sys2Proof.Machine
end

