-- ==== Sys2Proof/Laws/Store.lean ====
section
/-! SUPPORT. What the store passes do: CLEAR's fill and LOAD_SEED's loop. -/

namespace Sys2Proof.Machine

/-- Every byte of a buffer that reset draws is the free byte of that draw. -/
theorem read_drawnBuffer (c : Config) (draw : Nat) (b : Buf) {k : Nat} (hk : k < c.storeBytes) :
    (drawnBuffer c draw b).read k = Config.freeByte draw b.bit.toNat k := by
  rw [drawnBuffer, Memory.ofBytes, Memory.read_fill _ (Memory.wf_nil _) le_rfl, if_pos hk]

theorem wf_drawnBuffer (c : Config) (draw : Nat) (b : Buf) :
    Memory.wf c.storeBytes (drawnBuffer c draw b) = true :=
  Memory.wf_fill _ (Memory.wf_nil _) le_rfl

theorem wf_clearBuffer {c : Config} {m : Memory} (hm : Memory.wf c.storeBytes m = true) :
    Memory.wf c.storeBytes (clearBuffer c m) = true := Memory.wf_fill _ hm le_rfl

/-- A cleared canonical buffer lists nothing. -/
theorem clearBuffer_eq_nil {c : Config} {m : Memory} (hm : Memory.wf c.storeBytes m = true) :
    clearBuffer c m = [] :=
  Memory.ext (wf_clearBuffer hm) (Memory.wf_nil _) fun k hk => by
    rw [clearBuffer, Memory.read_fill _ hm le_rfl, if_pos hk, Memory.read_nil]

/-- The buffer that a pass leaves. -/
def Pass.buffer : Pass → Memory
  | .done m => m
  | .stopped m _ _ => m

/-- The cells that seed entries name, each set to age 1. -/
def seedCells (c : Config) (m : Memory) (es : List Byte) : Memory :=
  es.foldl (fun acc e => setCell c acc e.toNat 1) m

theorem wf_seedCells {c : Config} {es : List Byte} (hes : ∀ e ∈ es, e.toNat < c.cells)
    {m : Memory} (hm : Memory.wf c.storeBytes m = true) :
    Memory.wf c.storeBytes (seedCells c m es) = true := by
  induction es generalizing m with
  | nil => exact hm
  | cons e es ih =>
    exact ih (fun e' he' => hes e' (List.mem_cons_of_mem _ he'))
      (wf_setCell hm (hes e List.mem_cons_self) 1)

/-- Age 1 has only bit 0 set, so the mask of any BPV keeps it. -/
theorem one_and_ageMask (c : Config) : (1 : Byte) &&& c.ageMask = 1 := by
  unfold Config.ageMask
  cases c.bpv <;> rfl

/-- What a buffer reads after seeding: 1 at the named cells, the old age elsewhere. -/
theorem getCell_seedCells {c : Config} {es : List Byte} (hes : ∀ e ∈ es, e.toNat < c.cells)
    {m : Memory} (hm : Memory.wf c.storeBytes m = true) (idx : Nat) :
    getCell c (seedCells c m es) idx =
      if ∃ e ∈ es, e.toNat = idx then 1 else getCell c m idx := by
  induction es generalizing m with
  | nil => simp [seedCells]
  | cons e es ih =>
    have he := hes e List.mem_cons_self
    have hstep := ih (fun e' he' => hes e' (List.mem_cons_of_mem _ he')) (wf_setCell hm he 1)
    have hfold : seedCells c m (e :: es) = seedCells c (setCell c m e.toNat 1) es := rfl
    rw [hfold, hstep]
    by_cases hin : ∃ e' ∈ es, e'.toNat = idx
    · rw [if_pos hin, if_pos]
      obtain ⟨e', he', h⟩ := hin
      exact ⟨e', List.mem_cons_of_mem _ he', h⟩
    · rw [if_neg hin]
      by_cases heq : e.toNat = idx
      · rw [if_pos ⟨e, List.mem_cons_self, heq⟩, ← heq, getCell_setCell_same hm,
          one_and_ageMask]
      · rw [if_neg, getCell_setCell_other hm (Ne.symm heq)]
        rintro ⟨e', he', h⟩
        rcases List.mem_cons.mp he' with rfl | he'
        · exact heq h
        · exact hin ⟨e', he', h⟩

/-- LOAD_SEED's loop walks over the entries that name cells (R78). -/
theorem seedPass_append (c : Config) {pre : List Byte}
    (hpre : ∀ e ∈ pre, e ≠ 0 ∧ e.toNat < c.cells) (rest : List Byte) (j : Nat) (m : Memory) :
    seedPass c (pre ++ rest) j m = seedPass c rest (j + pre.length) (seedCells c m pre) := by
  induction pre generalizing j m with
  | nil => rfl
  | cons e es ih =>
    have he := hpre e List.mem_cons_self
    rw [List.cons_append, seedPass, if_neg he.1, if_neg (by omega),
      ih (fun e' he' => hpre e' (List.mem_cons_of_mem _ he')), List.length_cons,
      Nat.add_assoc, Nat.add_comm 1]
    rfl

/-- The 0 terminator ends the list (R78). -/
theorem seedPass_terminated (c : Config) {pre : List Byte}
    (hpre : ∀ e ∈ pre, e ≠ 0 ∧ e.toNat < c.cells) (rest : List Byte) (m : Memory) :
    seedPass c (pre ++ 0 :: rest) 0 m = .done (seedCells c m pre) := by
  rw [seedPass_append c hpre, seedPass, if_pos rfl]

/-- The first entry that is no cell and not 0 stops the list (R78, R97). -/
theorem seedPass_badEntry (c : Config) {pre : List Byte}
    (hpre : ∀ e ∈ pre, e ≠ 0 ∧ e.toNat < c.cells) {e : Byte} (he : e ≠ 0)
    (hN : c.cells ≤ e.toNat) (rest : List Byte) (m : Memory) :
    seedPass c (pre ++ e :: rest) 0 m =
      .stopped (seedCells c m pre) .seedRange (entryInfo pre.length e) := by
  rw [seedPass_append c hpre, seedPass, if_neg he, if_pos hN, Nat.zero_add]

/-- A list with no 0 stops after its last entry (R78, R97). -/
theorem seedPass_unterminated (c : Config) {pre : List Byte}
    (hpre : ∀ e ∈ pre, e ≠ 0 ∧ e.toNat < c.cells) (m : Memory) :
    seedPass c pre 0 m = .stopped (seedCells c m pre) .seedUnterminated 0 := by
  have h := seedPass_append c hpre [] 0 m
  rwa [List.append_nil] at h

/-- Every seed list is of one of the three kinds. -/
theorem seed_cases (c : Config) (es : List Byte) :
    (∃ pre rest, (∀ e ∈ pre, e ≠ 0 ∧ e.toNat < c.cells) ∧ es = pre ++ 0 :: rest) ∨
    (∃ pre e rest, (∀ e ∈ pre, e ≠ 0 ∧ e.toNat < c.cells) ∧ e ≠ 0 ∧ c.cells ≤ e.toNat ∧
      es = pre ++ e :: rest) ∨
    (∀ e ∈ es, e ≠ 0 ∧ e.toNat < c.cells) := by
  induction es with
  | nil => exact .inr (.inr (by simp))
  | cons x xs ih =>
    by_cases h0 : x = 0
    · exact .inl ⟨[], xs, by simp, by simp [h0]⟩
    · by_cases hN : c.cells ≤ x.toNat
      · exact .inr (.inl ⟨[], x, xs, by simp, h0, hN, rfl⟩)
      · have hx : x ≠ 0 ∧ x.toNat < c.cells := ⟨h0, by omega⟩
        rcases ih with ⟨pre, rest, h, rfl⟩ | ⟨pre, e, rest, h, he, hN, rfl⟩ | h
        · exact .inl ⟨x :: pre, rest, List.forall_mem_cons.mpr ⟨hx, h⟩, rfl⟩
        · exact .inr (.inl ⟨x :: pre, e, rest, List.forall_mem_cons.mpr ⟨hx, h⟩, he, hN, rfl⟩)
        · exact .inr (.inr (List.forall_mem_cons.mpr ⟨hx, h⟩))

/-- LOAD_SEED's loop keeps the canonical form, wherever it ends. -/
theorem wf_seedPass {c : Config} {m : Memory} (hm : Memory.wf c.storeBytes m = true)
    (es : List Byte) : Memory.wf c.storeBytes (seedPass c es 0 m).buffer = true := by
  rcases seed_cases c es with ⟨pre, rest, h, rfl⟩ | ⟨pre, e, rest, h, he, hN, rfl⟩ | h
  · rw [seedPass_terminated c h]
    exact wf_seedCells (fun e he => (h e he).2) hm
  · rw [seedPass_badEntry c h he hN]
    exact wf_seedCells (fun e he => (h e he).2) hm
  · rw [seedPass_unterminated c h]
    exact wf_seedCells (fun e he => (h e he).2) hm

end Sys2Proof.Machine
end

