-- ==== Sys2Proof/Laws/Engine.lean ====
section
/-! SUPPORT. What the automaton engine computes: the scan as a count over the listed neighbours, and
ADVANCE's loop cell by cell. -/

namespace Sys2Proof.Machine

theorem scanSlots_ok (c : Config) (cur : Memory) {es : List Byte}
    (h : ∀ e ∈ es.takeWhile (fun e => e != sentinel), e.toNat < c.cells) (n : Nat) :
    scanSlots c cur es n =
      .ok (n + (es.takeWhile (fun e => e != sentinel)).countP (liveEntry c cur)) := by
  induction es generalizing n with
  | nil => rfl
  | cons e es ih =>
    unfold scanSlots
    by_cases hs : e = sentinel
    · simp [hs]
    · have hb : (e != sentinel) = true := by simp [hs]
      rw [List.takeWhile_cons, if_pos hb] at h ⊢
      have he := h e List.mem_cons_self
      rw [if_neg hs, if_neg (by omega), ih (fun e' he' => h e' (List.mem_cons_of_mem _ he')),
        List.countP_cons]
      simp only [liveEntry, decide_eq_true_eq]
      split <;> simp [Nat.add_assoc, Nat.add_comm]

theorem scanSlots_error (c : Config) (cur : Memory) {es pre post : List Byte} {x : Byte}
    (hes : es.takeWhile (fun e => e != sentinel) = pre ++ x :: post)
    (hpre : ∀ e ∈ pre, e.toNat < c.cells) (hx : c.cells ≤ x.toNat) (n : Nat) :
    scanSlots c cur es n = .error x := by
  induction es generalizing n pre with
  | nil => simp at hes
  | cons e es ih =>
    by_cases hs : e = sentinel
    · simp [hs] at hes
    · have hb : (e != sentinel) = true := by simp [hs]
      rw [List.takeWhile_cons, if_pos hb] at hes
      unfold scanSlots
      rw [if_neg hs]
      cases pre with
      | nil =>
        obtain ⟨rfl, -⟩ := List.cons.inj hes
        rw [if_pos hx]
      | cons p pre =>
        obtain ⟨rfl, hes'⟩ := List.cons.inj hes
        have hp := hpre e List.mem_cons_self
        rw [if_neg (by omega)]
        exact ih hes' (fun e' he' => hpre e' (List.mem_cons_of_mem _ he')) _

/-- The count over a list whose entries are all cells (R79). -/
theorem liveCount_ok (c : Config) (cur : Memory) {cell : Nat}
    (h : ∀ e ∈ listedEntries c cell, e.toNat < c.cells) :
    liveCount c cur cell = .ok (liveNeighbours c cur cell) := by
  rw [liveCount, scanSlots_ok c cur h, Nat.zero_add]
  rfl

/-- The first malformed entry of a list is reported (R79, R98). -/
theorem liveCount_error (c : Config) (cur : Memory) {cell : Nat} {pre post : List Byte} {x : Byte}
    (h : listedEntries c cell = pre ++ x :: post) (hpre : ∀ e ∈ pre, e.toNat < c.cells)
    (hx : c.cells ≤ x.toNat) : liveCount c cur cell = .error x :=
  scanSlots_error c cur h hpre hx 0

/-- A list of entries is all cells, or has a first entry that is none. -/
theorem entries_cases (c : Config) (es : List Byte) :
    (∀ e ∈ es, e.toNat < c.cells) ∨
    ∃ pre x post, es = pre ++ x :: post ∧ (∀ e ∈ pre, e.toNat < c.cells) ∧ c.cells ≤ x.toNat := by
  induction es with
  | nil => exact .inl (by simp)
  | cons e es ih =>
    by_cases he : c.cells ≤ e.toNat
    · exact .inr ⟨[], e, es, rfl, by simp, he⟩
    · rcases ih with h | ⟨pre, x, post, rfl, hpre, hx⟩
      · exact .inl (by simp only [List.mem_cons, forall_eq_or_imp]; exact ⟨by omega, h⟩)
      · refine .inr ⟨e :: pre, x, post, rfl, ?_, hx⟩
        simp only [List.mem_cons, forall_eq_or_imp]
        exact ⟨by omega, hpre⟩

/-- The count of a scan is the count of the listed live entries, whatever it met (R79). -/
theorem liveCount_cases (c : Config) (cur : Memory) (cell : Nat) :
    (∃ n, liveCount c cur cell = .ok n) ∨ ∃ x, liveCount c cur cell = .error x := by
  cases liveCount c cur cell with
  | ok n => exact .inl ⟨n, rfl⟩
  | error x => exact .inr ⟨x, rfl⟩

theorem transition_le {maxAge v n : Nat} (h : 1 ≤ maxAge) : transition maxAge v n ≤ maxAge := by
  unfold transition
  split
  · split <;> omega
  · split <;> omega

theorem one_le_maxAge (c : Config) : 1 ≤ c.maxAge := by
  unfold Config.maxAge
  cases c.bpv <;> simp [Bpv.bits]

theorem maxAge_lt (c : Config) : c.maxAge < 256 := by
  unfold Config.maxAge
  cases c.bpv <;> simp [Bpv.bits]

theorem getCell_updateCell_other {c : Config} {nxt : Memory}
    (hm : Memory.wf c.storeBytes nxt = true) {cell j : Nat} (hj : j ≠ cell) (n : Nat) (v : Byte) :
    getCell c (updateCell c nxt cell n v) j = getCell c nxt j := by
  unfold updateCell
  repeat' split
  all_goals first
    | rfl
    | exact getCell_setCell_other hm hj _

theorem wf_updateCell {c : Config} {nxt : Memory} (hm : Memory.wf c.storeBytes nxt = true)
    {cell : Nat} (h : cell < c.cells) (n : Nat) (v : Byte) :
    Memory.wf c.storeBytes (updateCell c nxt cell n v) = true := by
  unfold updateCell
  repeat' split
  all_goals first
    | exact hm
    | exact wf_setCell hm h _

/-- The updated cell holds T(v, n) when the copy held its age v (R80, R81). -/
theorem getCell_updateCell_same {c : Config} {nxt : Memory}
    (hm : Memory.wf c.storeBytes nxt = true) {cell n : Nat} {v : Byte}
    (hv : getCell c nxt cell = v) :
    getCell c (updateCell c nxt cell n v) cell =
      BitVec.ofNat 8 (transition c.maxAge v.toNat n) := by
  have hle : v.toNat ≤ c.maxAge := hv ▸ getCell_le_maxAge c nxt cell
  have hmax := maxAge_lt c
  unfold updateCell transition
  by_cases h0 : 0 < v.toNat
  · rw [if_pos h0, if_pos h0]
    by_cases hs : survives n = true
    · rw [if_pos hs, if_pos hs]
      by_cases hlt : v.toNat < c.maxAge
      · rw [if_pos hlt, getCell_setCell_same hm, and_ageMask_of_le, Nat.min_eq_left (by omega)]
        · apply BitVec.eq_of_toNat_eq; simp [BitVec.toNat_add]
        · rw [BitVec.toNat_add]; simp; omega
      · rw [if_neg hlt, hv, Nat.min_eq_right (by omega)]
        apply BitVec.eq_of_toNat_eq
        rw [BitVec.toNat_ofNat, Nat.mod_eq_of_lt (by omega)]
        omega
    · rw [if_neg hs, if_neg hs, getCell_setCell_same hm]
      simp
  · have hv0 : v = 0 := BitVec.eq_of_toNat_eq (by simpa using Nat.eq_zero_of_not_pos h0)
    rw [if_neg h0, if_neg h0]
    by_cases hs : spawns n = true
    · rw [if_pos hs, if_pos hs, getCell_setCell_same hm, one_and_ageMask]
      rfl
    · rw [if_neg hs, if_neg hs, hv, hv0]
      rfl

/-- ADVANCE's loop over cells whose scans end: each of them takes its next age, and every other slot
keeps what the copy held (R81). -/
theorem advanceCells_done {c : Config} {cur : Memory} {count : Nat → Nat} {cells : List Nat}
    (hc : ∀ x ∈ cells, x < c.cells) (hn : cells.Nodup)
    (hok : ∀ x ∈ cells, liveCount c cur x = .ok (count x)) {nxt : Memory}
    (hm : Memory.wf c.storeBytes nxt = true)
    (hcopy : ∀ x ∈ cells, getCell c nxt x = getCell c cur x) (rest : List Nat) :
    ∃ m, advanceCells c cur (cells ++ rest) nxt = advanceCells c cur rest m ∧
      Memory.wf c.storeBytes m = true ∧
      (∀ x ∈ cells, getCell c m x =
        BitVec.ofNat 8 (transition c.maxAge (getCell c cur x).toNat (count x))) ∧
      ∀ x, x ∉ cells → getCell c m x = getCell c nxt x := by
  induction cells generalizing nxt with
  | nil => exact ⟨nxt, rfl, hm, by simp, by simp⟩
  | cons a cells ih =>
    have ha := hc a List.mem_cons_self
    have hna := (List.nodup_cons.mp hn).1
    obtain ⟨m, he, hw, hin, hout⟩ := ih (fun x hx => hc x (List.mem_cons_of_mem _ hx))
      (List.nodup_cons.mp hn).2 (fun x hx => hok x (List.mem_cons_of_mem _ hx))
      (nxt := updateCell c nxt a (count a) (getCell c cur a)) (wf_updateCell hm ha _ _)
      (fun x hx => by
        have hxa : x ≠ a := by rintro rfl; exact hna hx
        rw [getCell_updateCell_other hm hxa, hcopy x (List.mem_cons_of_mem _ hx)])
    refine ⟨m, ?_, hw, ?_, ?_⟩
    · rw [List.cons_append, advanceCells, hok a List.mem_cons_self]
      exact he
    · intro x hx
      rcases List.mem_cons.mp hx with rfl | hx
      · rw [hout x hna, getCell_updateCell_same hm (hcopy x List.mem_cons_self)]
      · exact hin x hx
    · intro x hx
      have hxa : x ≠ a := by rintro rfl; exact hx List.mem_cons_self
      rw [hout x (fun h => hx (List.mem_cons_of_mem _ h)), getCell_updateCell_other hm hxa]

/-- The initializing copy holds the old ages, padding slots included (R38, R81). -/
theorem getCell_copy {c : Config} {nxt : Memory} (cur : Memory)
    (hm : Memory.wf c.storeBytes nxt = true) {idx : Nat}
    (h : idx < c.storeBytes * c.valuesPerByte) :
    getCell c (nxt.fill c.storeBytes cur.read) idx = getCell c cur idx :=
  getCell_congr (by
    rw [Memory.read_fill _ hm le_rfl, if_pos (byteIndex_lt_of_slot h)])

theorem wf_advanceCells {c : Config} {cur nxt : Memory} {cells : List Nat}
    (hc : ∀ x ∈ cells, x < c.cells) (hm : Memory.wf c.storeBytes nxt = true) :
    Memory.wf c.storeBytes (advanceCells c cur cells nxt).buffer = true := by
  induction cells generalizing nxt with
  | nil => exact hm
  | cons a cells ih =>
    unfold advanceCells
    split
    · exact hm
    · exact ih (fun x hx => hc x (List.mem_cons_of_mem _ hx))
        (wf_updateCell hm (hc a List.mem_cons_self) _ _)

/-- ADVANCE's pass keeps the canonical form, wherever it ends. -/
theorem wf_advancePass {c : Config} {nxt : Memory} (cur : Memory)
    (hm : Memory.wf c.storeBytes nxt = true) :
    Memory.wf c.storeBytes (advancePass c cur nxt).buffer = true :=
  wf_advanceCells (fun _ hx => List.mem_range.mp hx) (Memory.wf_fill _ hm le_rfl)

end Sys2Proof.Machine
end

