-- ==== Sys2Proof/Laws/PerInstr.lean ====
section
/-! SUPPORT. Statements about every command as syntax, one lemma per constructor of Instr. -/

namespace Sys2Proof.Laws.OpcodeRow

/-- The word of the command matches the opcode-map row of its mnemonic (R69). -/
def Statement (i : Instr) : Prop :=
  ∃ r ∈ opcodeRows, r.mnemonic = i.mnemonic ∧ r.accepts (encode i) = true

theorem nop : Statement .nop := by unfold Statement; decide
theorem clear : Statement .clear := by unfold Statement; decide
theorem loadSeed : Statement .loadSeed := by unfold Statement; decide
theorem advance : Statement .advance := by unfold Statement; decide
theorem render : Statement .render := by unfold Statement; decide
theorem status : Statement .status := by unfold Statement; decide

theorem nibble_and_ones : ∀ y : BitVec 4, y &&& 15#4 = y := by decide

/-- Masking off A and X leaves the OP field (R67). -/
theorem packWord_and_op (op a : BitVec 4) (x : Byte) :
    packWord op a x &&& 0xF000 = packWord op 0 0 := by
  unfold packWord
  rw [show (0xF000 : Word) = (0xF#4 ++ 0#4 : BitVec 8) ++ 0#8 from rfl, BitVec.and_append,
    BitVec.and_append]
  simp [nibble_and_ones]

/-- Masking off X leaves the OP and A fields (R67). -/
theorem packWord_and_opA (op a : BitVec 4) (x : Byte) :
    packWord op a x &&& 0xFF00 = packWord op a 0 := by
  unfold packWord
  rw [show (0xFF00 : Word) = (0xF#4 ++ 0xF#4 : BitVec 8) ++ 0#8 from rfl, BitVec.and_append,
    BitVec.and_append]
  simp [nibble_and_ones]

theorem set (x : Byte) (a : BitVec 4) : Statement (.set x a) :=
  ⟨{ mnemonic := "SET", matchBits := 0x2000, maskBits := 0xF000 }, by decide, rfl, by
    simp only [OpcodeRow.accepts, encode, packWord_and_op]; decide⟩

theorem get (x : Byte) : Statement (.get x) :=
  ⟨{ mnemonic := "GET", matchBits := 0x3000, maskBits := 0xFF00 }, by decide, rfl, by
    simp only [OpcodeRow.accepts, encode, packWord_and_opA]; decide⟩

theorem color (x : Byte) : Statement (.color x) :=
  ⟨{ mnemonic := "COLOR", matchBits := 0x6000, maskBits := 0xFF00 }, by decide, rfl, by
    simp only [OpcodeRow.accepts, encode, packWord_and_opA]; decide⟩

theorem renderFill (x : Byte) : Statement (.renderFill x) :=
  ⟨{ mnemonic := "RENDER_FILL", matchBits := 0x8000, maskBits := 0xFF00 }, by decide, rfl, by
    simp only [OpcodeRow.accepts, encode, packWord_and_opA]; decide⟩

end Sys2Proof.Laws.OpcodeRow
end

