-- ==== Sys2Proof/Laws/Step.lean ====
section
/-! SUPPORT. What a meaning and a step can do, said once: the inversion lemmas from which claims
about every command or every step are derived. -/

namespace Sys2Proof.Machine

theorem unlessFaulted_eq (f : State → State) (s : State) :
    unlessFaulted f s = .next (if s.faulted then s else f s) := rfl

/-- A command other than STATUS changes nothing while FAULTED = 1 (R99). -/
theorem unlessFaulted_of_faulted {f : State → State} {s : State} (h : s.faulted = true) :
    unlessFaulted f s = .next s := by simp [unlessFaulted_eq, h]

theorem unlessFaulted_of_running {f : State → State} {s : State} (h : s.faulted = false) :
    unlessFaulted f s = .next (f s) := by simp [unlessFaulted_eq, h]

theorem unlessFaulted_cases {f : State → State} {s t : State} (h : unlessFaulted f s = .next t) :
    (s.faulted = true ∧ t = s) ∨ (s.faulted = false ∧ t = f s) := by
  rw [unlessFaulted_eq, Host.Outcome.next.injEq] at h
  cases hf : s.faulted <;> simp_all

/-! ### Each command in a state with FAULTED = 0 -/

theorem exec_clear {s : State} (h : s.faulted = false) : exec .clear s = .next
    { s with b0 := clearBuffer s.config s.b0, b1 := clearBuffer s.config s.b1 } := by
  simp only [exec, execClear, unlessFaulted_of_running h]

theorem exec_set {s : State} (h : s.faulted = false) (x : Byte) (a : BitVec 4) :
    exec (.set x a) s = .next
      (if x.toNat < s.config.cells then
        s.setMem s.active (setCell s.config s.cur x.toNat (ageOperand a))
      else s.raiseFault .indexRange (indexInfo x)) := by
  rw [exec, execSet, unlessFaulted_of_running h]
  by_cases hx : x.toNat < s.config.cells <;> simp [State.isCell, indexOperand, hx]

theorem exec_get {s : State} (h : s.faulted = false) (x : Byte) : exec (.get x) s = .next
    (if x.toNat < s.config.cells then
      s.startTransfers (.get x) [.response (ageResponse (s.age x.toNat))]
    else s.raiseFault .indexRange (indexInfo x)) := by
  rw [exec, execGet, unlessFaulted_of_running h]
  by_cases hx : x.toNat < s.config.cells <;> simp [State.isCell, indexOperand, hx]

theorem exec_loadSeed {s : State} (h : s.faulted = false) : exec .loadSeed s = .next
    (s.finishPass s.active (seedPass s.config s.config.seed 0 s.cur)) := by
  simp only [exec, execLoadSeed, unlessFaulted_of_running h]

theorem exec_advance {s : State} (h : s.faulted = false) : exec .advance s = .next
    (s.finishPass s.active.other
      (advancePass s.config s.cur (s.mem s.active.other))) := by
  simp only [exec, execAdvance, unlessFaulted_of_running h]

theorem exec_color {s : State} (h : s.faulted = false) (x : Byte) : exec (.color x) s = .next
    (s.startTransfers (.color x) [.response (colourResponse (mapColour s.config x))]) := by
  simp only [exec, execColor, unlessFaulted_of_running h]

theorem exec_render {s : State} (h : s.faulted = false) : exec .render s = .next
    (s.startTransfers .render ((bufferFrame s.config s.cur).map .byte)) := by
  simp only [exec, execRender, unlessFaulted_of_running h]

theorem exec_renderFill {s : State} (h : s.faulted = false) (x : Byte) :
    exec (.renderFill x) s = .next (s.startTransfers (.renderFill x)
      ((frameBytes s.config (fun _ => mapColour s.config x)).map .byte)) := by
  simp only [exec, execRenderFill, unlessFaulted_of_running h]

/-- What one command does to a state with FAULTED = 0. -/
inductive Effect : Instr → State → State → Prop
  | nop (s) : Effect .nop s s
  | clear (s) : Effect .clear s
      { s with b0 := clearBuffer s.config s.b0, b1 := clearBuffer s.config s.b1 }
  | set (s x a) (h : x.toNat < s.config.cells) : Effect (.set x a) s
      (s.setMem s.active (setCell s.config s.cur x.toNat (ageOperand a)))
  | setRange (s x a) (h : s.config.cells ≤ x.toNat) : Effect (.set x a) s
      (s.raiseFault .indexRange (indexInfo x))
  | get (s x) (h : x.toNat < s.config.cells) : Effect (.get x) s
      (s.startTransfers (.get x) [.response (ageResponse (s.age x.toNat))])
  | getRange (s x) (h : s.config.cells ≤ x.toNat) : Effect (.get x) s
      (s.raiseFault .indexRange (indexInfo x))
  | loadSeed (s) : Effect .loadSeed s
      (s.finishPass s.active (seedPass s.config s.config.seed 0 s.cur))
  | advance (s) : Effect .advance s
      (s.finishPass s.active.other (advancePass s.config s.cur (s.mem s.active.other)))
  | color (s x) : Effect (.color x) s
      (s.startTransfers (.color x) [.response (colourResponse (mapColour s.config x))])
  | render (s) : Effect .render s
      (s.startTransfers .render ((bufferFrame s.config s.cur).map .byte))
  | renderFill (s x) : Effect (.renderFill x) s
      (s.startTransfers (.renderFill x)
        ((frameBytes s.config (fun _ => mapColour s.config x)).map .byte))
  | status (s) : Effect .status s (s.startTransfers .status [.response s.statusWord])

/-- Inversion of `exec`: STATUS responds in every state; any other command leaves a faulted state as
it is, and has its effect in a state with FAULTED = 0. -/
theorem exec_cases {i : Instr} {s t : State} (h : exec i s = .next t) :
    (i = .status ∧ t = s.startTransfers .status [.response s.statusWord]) ∨
    (s.faulted = true ∧ t = s) ∨ (s.faulted = false ∧ Effect i s t) := by
  cases i with
  | status =>
    simp only [exec, execStatus, Host.Outcome.next.injEq] at h
    exact .inl ⟨rfl, h.symm⟩
  | set x a =>
    simp only [exec, execSet] at h
    rcases unlessFaulted_cases h with ⟨hf, rfl⟩ | ⟨hf, rfl⟩
    · exact .inr (.inl ⟨hf, rfl⟩)
    · refine .inr (.inr ⟨hf, ?_⟩)
      by_cases hx : x.toNat < s.config.cells
      · simpa [State.isCell, indexOperand, hx] using Effect.set s x a hx
      · simpa [State.isCell, indexOperand, hx] using Effect.setRange s x a (by omega)
  | get x =>
    simp only [exec, execGet] at h
    rcases unlessFaulted_cases h with ⟨hf, rfl⟩ | ⟨hf, rfl⟩
    · exact .inr (.inl ⟨hf, rfl⟩)
    · refine .inr (.inr ⟨hf, ?_⟩)
      by_cases hx : x.toNat < s.config.cells
      · simpa [State.isCell, indexOperand, hx] using Effect.get s x hx
      · simpa [State.isCell, indexOperand, hx] using Effect.getRange s x (by omega)
  | nop =>
    simp only [exec, execNop] at h
    rcases unlessFaulted_cases h with ⟨hf, rfl⟩ | ⟨hf, rfl⟩
    · exact .inr (.inl ⟨hf, rfl⟩)
    · exact .inr (.inr ⟨hf, .nop _⟩)
  | clear =>
    simp only [exec, execClear] at h
    rcases unlessFaulted_cases h with ⟨hf, rfl⟩ | ⟨hf, rfl⟩
    · exact .inr (.inl ⟨hf, rfl⟩)
    · exact .inr (.inr ⟨hf, .clear s⟩)
  | loadSeed =>
    simp only [exec, execLoadSeed] at h
    rcases unlessFaulted_cases h with ⟨hf, rfl⟩ | ⟨hf, rfl⟩
    · exact .inr (.inl ⟨hf, rfl⟩)
    · exact .inr (.inr ⟨hf, .loadSeed s⟩)
  | advance =>
    simp only [exec, execAdvance] at h
    rcases unlessFaulted_cases h with ⟨hf, rfl⟩ | ⟨hf, rfl⟩
    · exact .inr (.inl ⟨hf, rfl⟩)
    · exact .inr (.inr ⟨hf, .advance s⟩)
  | color x =>
    simp only [exec, execColor] at h
    rcases unlessFaulted_cases h with ⟨hf, rfl⟩ | ⟨hf, rfl⟩
    · exact .inr (.inl ⟨hf, rfl⟩)
    · exact .inr (.inr ⟨hf, .color s x⟩)
  | render =>
    simp only [exec, execRender] at h
    rcases unlessFaulted_cases h with ⟨hf, rfl⟩ | ⟨hf, rfl⟩
    · exact .inr (.inl ⟨hf, rfl⟩)
    · exact .inr (.inr ⟨hf, .render s⟩)
  | renderFill x =>
    simp only [exec, execRenderFill] at h
    rcases unlessFaulted_cases h with ⟨hf, rfl⟩ | ⟨hf, rfl⟩
    · exact .inr (.inl ⟨hf, rfl⟩)
    · exact .inr (.inr ⟨hf, .renderFill s x⟩)

/-- No command stops the machine. -/
theorem exec_isNext (i : Instr) (s : State) : ∃ t, exec i s = .next t := by
  cases i <;> exact ⟨_, rfl⟩

/-- While FAULTED = 1 a command other than STATUS is discarded (R99). -/
theorem exec_of_faulted {i : Instr} {s : State} (h : s.faulted = true) (hi : i ≠ .status) :
    exec i s = .next s := by
  obtain ⟨t, ht⟩ := exec_isNext i s
  rcases exec_cases ht with ⟨rfl, -⟩ | ⟨-, rfl⟩ | ⟨hf, -⟩
  · exact absurd rfl hi
  · exact ht
  · rw [h] at hf; cases hf

/-- Inversion of `step`: a reset, a transfer, an idle wait, a command, or an illegal word. -/
theorem step_cases {s t : State} (h : step s = .next t) :
    (s.outside.now.reset = true ∧ t = s.tick.applyReset) ∨
    (s.outside.now.reset = false ∧
      ((∃ p, s.busy = some p ∧ t = s.tick.serve s.outside.now p) ∨
       (s.busy = none ∧ s.cmds = [] ∧ t = s.tick) ∨
       (∃ w rest i, s.busy = none ∧ s.cmds = w :: rest ∧ decode w = .ok i ∧
          exec i s.tick.takeWord = .next t) ∨
       (∃ w rest e, s.busy = none ∧ s.cmds = w :: rest ∧ decode w = .error e ∧
          t = s.tick.takeWord.raiseFault .illegalCommand w))) := by
  unfold step stepBlock at h
  cases hr : s.outside.now.reset with
  | true =>
    simp only [hr, if_true, Host.Outcome.next.injEq] at h
    exact .inl ⟨rfl, h.symm⟩
  | false =>
    refine .inr ⟨rfl, ?_⟩
    simp only [hr, Bool.false_eq_true, if_false] at h
    cases hb : s.busy with
    | some p =>
      simp only [hb, Host.Outcome.next.injEq] at h
      exact .inl ⟨p, rfl, h.symm⟩
    | none =>
      simp only [hb] at h
      cases hc : s.cmds with
      | nil =>
        simp only [hc, Host.Outcome.next.injEq] at h
        exact .inr (.inl ⟨rfl, rfl, h.symm⟩)
      | cons w rest =>
        simp only [hc, runWord] at h
        cases hd : decode w with
        | ok i =>
          simp only [hd] at h
          exact .inr (.inr (.inl ⟨w, rest, i, rfl, rfl, hd, h⟩))
        | error e =>
          simp only [hd, Host.Outcome.next.injEq] at h
          exact .inr (.inr (.inr ⟨w, rest, e, rfl, rfl, hd, h.symm⟩))

/-- No step stops the machine. -/
theorem step_isNext (s : State) : ∃ t, step s = .next t := by
  unfold step stepBlock
  split
  · exact ⟨_, rfl⟩
  · split
    · exact ⟨_, rfl⟩
    · split
      · exact ⟨_, rfl⟩
      · unfold runWord
        split
        · exact exec_isNext _ _
        · exact ⟨_, rfl⟩

/-- A run of `n + 1` steps of any machine goes on from its first step's next state. -/
theorem run_succ_of_step (M : Host.Core) (n : Nat) (s t : M.State) (h : M.step s = .next t) :
    M.run (n + 1) s = M.run n t := by
  simp only [Host.Core.run, h]

theorem core_run_zero (s : State) : Host.Core.run core 0 s = .next s := rfl

/-- A run goes on from its first step's next state. -/
theorem core_run_succ {n : Nat} {s t : State} (h : step s = .next t) :
    Host.Core.run core (n + 1) s = Host.Core.run core n t := run_succ_of_step core n s t h

/-! ### Runs -/

/-- What holds at the start and is kept by every step but a reset holds all through a run. -/
theorem RunsTo.keeps {P : State → Prop} {s t : State} (h : RunsTo s t) (hs : P s)
    (hstep : ∀ u v, u.outside.now.reset = false → step u = .next v → P u → P v) : P t := by
  induction h with
  | start => exact hs
  | goesOn _ hr hu ih => exact hstep _ _ hr hu ih

/-- A run goes on from the next state of its first step. -/
theorem RunsTo.head {s t u : State} (hr : s.outside.now.reset = false) (hs : step s = .next t)
    (h : RunsTo t u) : RunsTo s u := by
  induction h with
  | start => exact .goesOn .start hr hs
  | goesOn _ hr' hs' ih => exact .goesOn ih hr' hs'

/-- A step that is no reset only moves the outside on. -/
theorem step_outside {s t : State} (h : step s = .next t) : t.outside = s.outside.later := by
  rcases step_cases h with ⟨-, rfl⟩ | ⟨-, ⟨p, -, rfl⟩ | ⟨-, -, rfl⟩ | ⟨w, rest, i, -, -, -, he⟩ |
    ⟨w, rest, e, -, -, -, rfl⟩⟩
  · rfl
  · simp
  · rfl
  · rcases exec_cases he with ⟨-, rfl⟩ | ⟨-, rfl⟩ | ⟨-, heff⟩
    · rfl
    · rfl
    · cases heff <;> simp
  · simp

/-- The states of `Host.Core.run` are those of one run, in a steady outside that holds reset low. -/
theorem runsTo_of_core_run {pins : Pins} (hp : pins.reset = false) (n : Nat) {s t : State}
    (ho : s.outside = { script := [], after := pins })
    (h : Host.Core.run core n s = .next t) : RunsTo s t := by
  induction n generalizing s with
  | zero =>
    injection h with h
    exact h ▸ .start
  | succ n ih =>
    obtain ⟨u, hu⟩ := step_isNext s
    rw [core_run_succ hu] at h
    exact .head (by rw [ho]; exact hp) hu (ih (by rw [step_outside hu, ho]; rfl) h)

theorem inv_iff {s : State} : s.inv = true ↔
    Memory.wf s.config.storeBytes s.b0 = true ∧ Memory.wf s.config.storeBytes s.b1 = true ∧
    s.faultStatusLegal = true ∧ ∀ p, s.busy = some p → p.legal = true := by
  cases hb : s.busy <;> simp [State.inv, hb, and_assoc]

/-- Under the invariant both buffers are in canonical form. -/
theorem wf_mem_of_inv {s : State} (h : s.inv = true) (b : Buf) :
    Memory.wf s.config.storeBytes (s.mem b) = true := by
  have h' := inv_iff.mp h
  cases b
  · exact h'.1
  · exact h'.2.1

end Sys2Proof.Machine
end

