-- ==== Sys2Proof/Tests/Slice0.lean ====
section
/-! SUPPORT. Tests on small states, their expected results taken from spec/95_test_vectors.md or
computed by hand from the rules, and for each statement a witness that meets its hypotheses. -/

namespace Sys2Proof.Tests

open Sys2Proof.Machine

/-! ### Small states -/

/-- The palette, brightness and order of the test configuration TC (95_test_vectors.md), with the
topology of program P2: N = 8, K = 6. Cell 2's list ends with SENTINEL after two entries, cell 5's
has all K entries. SEED is that of vector LS5. -/
def cfg : Config where
  cells := 8
  rings := 10
  slots := 6
  bpv := .two
  palette := [⟨0, 0, 0⟩, ⟨0x10, 0, 0⟩, ⟨0, 0x10, 0⟩, ⟨0, 0, 0x10⟩]
  brightness := 0x1F
  order := .bgr
  topology := [[1, 2, 3, 4, 5, 0xFF], [2, 3, 4, 0xFF, 0xFF, 0xFF], [1, 3, 0xFF, 0xFF, 0xFF, 0xFF],
    [1, 2, 4, 5, 0xFF, 0xFF], [5, 6, 0xFF, 0xFF, 0xFF, 0xFF], [1, 2, 3, 4, 5, 6],
    [1, 2, 3, 0xFF, 0xFF, 0xFF], [1, 2, 0xFF, 0xFF, 0xFF, 0xFF]]
  seed := [3, 9, 0]

/-- `cfg` with the malformed list of vector E6 for cell 3. -/
def badTopo : Config :=
  { cfg with topology := cfg.topology.set 3 [1, 0x09, 0xFF, 0xFF, 0xFF, 0xFF] }

/-- The reference N = 255 with empty neighbour lists and the seed of program P1. -/
def refCfg : Config :=
  { cfg with cells := 255, topology := List.replicate 255 (List.replicate 6 0xFF),
             seed := [1, 2, 3, 0] }

/-- An idle state with B0 current and no fault, the outside accepting. -/
def st (c : Config) (b0 b1 : Memory) : State :=
  { State.reset with config := c, b0 := b0, b1 := b1 }

/-- The start of program P2's ADVANCE: ages [0, 1, 3, 1, 2, 1, 0, 0]. -/
def p2 (c : Config) : State := st c [(0, 0x74), (1, 0x06)] []

/-- A state with the fault of vector S10. -/
def failed : State := { p2 cfg with faulted := true, faultCode := 2, faultInfo := 0x00FF }

/-- The state a meaning or a step answers. -/
def after : Result → Option State
  | .next s => some s
  | .fault _ => none
  | .refused _ => none

/-- The transfers that a state still waits for. -/
def waits (s : State) : List Transfer := (s.busy.map InProgress.waiting).getD []

/-! ### Decoding (the words of R69, written out bit by bit) -/

theorem test_decode_nop : decode 0b0000000000000000 = .ok .nop := by decide
theorem test_decode_clear : decode 0b0001000000000000 = .ok .clear := by decide
theorem test_decode_set : decode 0b0010011000001001 = .ok (.set 9 6) := by decide
theorem test_decode_get : decode 0b0011000011111110 = .ok (.get 254) := by decide
theorem test_decode_loadSeed : decode 0b0100000000000000 = .ok .loadSeed := by decide
theorem test_decode_advance : decode 0b0101000000000000 = .ok .advance := by decide
theorem test_decode_color : decode 0b0110000000101000 = .ok (.color 40) := by decide
theorem test_decode_render : decode 0b0111000000000000 = .ok .render := by decide
theorem test_decode_renderFill : decode 0b1000000000000101 = .ok (.renderFill 5) := by decide
theorem test_decode_status : decode 0b1001000000000000 = .ok .status := by decide

/-- The illegal words of 95_test_vectors.md section 2.1. -/
theorem test_decode_illegal :
    [0x0001, 0x1800, 0x3100, 0x4080, 0x5001, 0x6128, 0x7FFF, 0x8100, 0x9001].all
      (fun w => decode w == .error .mustBeZero) = true ∧
    [0xA000, 0xFFFF].all (fun w => decode w == .error .reservedOpcode) = true := by decide

theorem test_decodeTableWord : decodeTableWord 16 0x2A7F = some (.set 127 10) ∧
    decodeTableWord 16 0x3100 = none := by decide

/-! ### Well-formedness: each check refuses an ill-formed term -/

theorem smoke_asm_set_x : AsmCmd.wf (.set 256 0) = false := by decide
theorem smoke_asm_set_a : AsmCmd.wf (.set 0 16) = false := by decide
theorem smoke_asm_get : AsmCmd.wf (.get 256) = false := by decide
theorem smoke_asm_color : AsmCmd.wf (.color 256) = false := by decide
theorem smoke_asm_renderFill : AsmCmd.wf (.renderFill 256) = false := by decide
theorem smoke_asm_seed : AsmCmd.wf (.seedCell 256) = false := by decide
theorem smoke_asm_kill : AsmCmd.wf (.killCell 256) = false := by decide
theorem smoke_asm_ok : AsmCmd.wf (.set 255 15) = true := by decide
theorem smoke_cfg_ok : cfg.wf = true := by decide
theorem smoke_cfg_noCells : Config.wf { cfg with cells := 0, topology := [] } = false := by decide
theorem smoke_cfg_cells : Config.wf { cfg with
    cells := 256, topology := List.replicate 256 (List.replicate 6 0xFF) } = false := by
  simp only [Config.wf, show decide (256 ≤ 255) = false from rfl, Bool.and_false, Bool.false_and]
theorem smoke_cfg_noSlots : Config.wf { cfg with
    slots := 0, topology := List.replicate 8 [] } = false := by decide
theorem smoke_cfg_slots : Config.wf { cfg with
    slots := 8, topology := List.replicate 8 (List.replicate 8 0xFF) } = false := by decide
theorem smoke_cfg_palette : Config.wf { cfg with palette := cfg.palette.tail } = false := by decide
theorem smoke_cfg_paletteLong : Config.wf { cfg with
    palette := List.replicate 257 ⟨0, 0, 0⟩ } = false := by
  simp only [Config.wf, List.length_replicate, show decide (257 ≤ 256) = false from rfl,
    Bool.and_false, Bool.false_and]
theorem smoke_cfg_noSeed : Config.wf { cfg with seed := [] } = false := by decide
theorem smoke_cfg_seedLong : Config.wf { cfg with seed := List.replicate 257 0 } = false := by
  simp only [Config.wf, List.length_replicate, show decide (257 ≤ 256) = false from rfl,
    Bool.and_false, Bool.false_and]
theorem smoke_cfg_topology : Config.wf { cfg with topology := cfg.topology.tail } = false := by
  decide
theorem smoke_cfg_row : Config.wf { cfg with topology := cfg.topology.set 0 [1] } = false := by
  decide

/-! ### The commands, one step each -/

/-- NOP, by program-level example of R92: a step on 0x0000 leaves the store and the ports alone. -/
theorem test_nop : after (step ((p2 cfg).withFetchWord 16 0x0000)) = some (p2 cfg) := by decide

/-- Vector S12. -/
theorem test_clear : (after (exec .clear (st cfg [(0, 0x74), (1, 0xC6)] [(1, 0x80)]))).map
    (fun t => (t.b0, t.b1, t.active)) = some ([], [], .b0) := by decide

/-- Vectors S3 and S6. -/
theorem test_set : (after (exec (.set 254 2) (st refCfg [] []))).map State.b0 = some [(63, 0x20)] ∧
    (after (exec (.set 1 0) (st refCfg [(0, 0xFF)] []))).map State.b0 = some [(0, 0xF3)] := by decide

/-- Vectors S11 and S13: the current buffer is B1; BPV = 4. -/
theorem test_set_active_bpv :
    (after (exec (.set 4 1) { st refCfg [] [] with active := .b1 })).map
      (fun t => (t.b0, t.b1)) = some ([], [(1, 0x01)]) ∧
    (after (exec (.set 3 9) (st { refCfg with bpv := .four } [] []))).map State.b0 =
      some [(1, 0x90)] := by decide

/-- Vectors S7 and S10. -/
theorem test_get : (after (exec (.get 1) (st refCfg [(0, 0xFB)] []))).map waits =
      some [.response 0x000002] ∧
    (after (exec (.get 255) (st refCfg [] []))).map
      (fun t => (waits t, t.faulted, t.faultCode, t.faultInfo)) =
      some ([], true, 2, 0x00FF) := by decide

/-- Vectors LS1 and LS7: a live listed cell is set to 1. -/
theorem test_loadSeed : (after (exec .loadSeed (st refCfg [(0, 0x30)] []))).map State.b0 =
    some [(0, 0x54)] := by decide

/-- Vectors LS5 and LS6. -/
theorem test_loadSeed_fault :
    (after (exec .loadSeed (st cfg [] []))).map (fun t => (t.b0, t.faultCode, t.faultInfo)) =
      some ([(0, 0x40)], 4, 0x0109) ∧
    (after (exec .loadSeed (st { cfg with seed := [1, 2] } [] []))).map
      (fun t => (t.b0, t.faultCode, t.faultInfo)) = some ([(0, 0x14)], 5, 0x0000) := by decide

/-- Program P2, step 7: births at 2 and 5, deaths at 1, 4 and 5, survival at 2 and 3. -/
theorem test_advance : (after (exec .advance (p2 cfg))).map
    (fun t => (t.b0, t.b1, t.active)) =
      some ([(0, 0x74), (1, 0x06)], [(0, 0x39), (1, 0x40)], .b1) := by decide

/-- Vectors E6 and E11 on P2's ages: ADVANCE stops at cell 3, no swap, cells 0 to 2 updated. -/
theorem test_advance_fault : (after (exec .advance (p2 badTopo))).map
    (fun t => (t.b0, t.b1, t.active, t.faultCode, t.faultInfo)) =
      some ([(0, 0x74), (1, 0x06)], [(0, 0x79), (1, 0x06)], .b0, 3, 0x0309) := by decide

/-- Vectors M1, M3, M4, M6 and M10. -/
theorem test_color : [0, 3, 4, 40, 255].map (fun v =>
    (after (exec (.color v) (st cfg [] []))).map waits) =
      [some [.response 0x000000], some [.response 0x000010], some [.response 0x0A0500],
       some [.response 0x120900], some [.response 0x402000]] := by decide

/-- Program P3, step 6 (N = 5). -/
theorem test_render :
    (after (exec .render (st { cfg with cells := 5 } [(0, 0xE4), (1, 0x01)] []))).map waits =
      some (List.map Transfer.byte
        [0x00, 0x00, 0x00, 0x00, 0xFF, 0x00, 0x00, 0x00, 0xFF, 0x00, 0x00, 0x10,
         0xFF, 0x00, 0x10, 0x00, 0xFF, 0x10, 0x00, 0x00, 0xFF, 0x00, 0x00, 0x10, 0xFF, 0xFF]) := by
  decide

/-- Program P3, step 8, with the channel orders (G, B, R) and the header of BRIGHTNESS5 = 0x10. -/
theorem test_renderFill :
    (after (exec (.renderFill 40) (st { cfg with
        cells := 1, order := .gbr, brightness := 0x10 } [] []))).map waits =
      some (List.map Transfer.byte
        [0x00, 0x00, 0x00, 0x00, 0xF0, 0x09, 0x00, 0x12, 0xFF, 0xFF]) := by decide

/-- Vectors ST2 and ST5: ACTIVE in bit 4, the first fault's code and information. -/
theorem test_status :
    (after (exec .status { p2 cfg with active := .b1 })).map waits = some [.response 0x000010] ∧
    (after (exec .status { p2 cfg with
        active := .b1, faulted := true, faultCode := 1, faultInfo := 0x5001 })).map waits =
      some [.response 0x500113] := by decide

/-- Vectors ST9 and ST10: while FAULTED, a later SET and an illegal 0x9001 are discarded. -/
theorem test_faulted_discards :
    after (step (failed.withFetchWord 16 0x2100)) = some failed ∧
    after (step (failed.withFetchWord 16 0x9001)) = some failed := by decide

/-- Vector ST4: an illegal word. -/
theorem test_illegal_word : (after (step ((p2 cfg).withFetchWord 16 0xA000))).map
    (fun t => (t.faultCode, t.faultInfo, t.b0)) =
      some (1, 0xA000, [(0, 0x74), (1, 0x06)]) := by decide

/-- Vectors E2, E3, E4, E5 and E7 on P2's ages: the scan of a neighbour list. -/
theorem test_scan :
    [[1, 2, 3, 4, 5, 0xFF], [1, 2, 3, 4, 5, 6], [1, 1, 0xFF], [1, 0xFF, 9], [0, 6, 7, 0xFF]].map
      (fun es => (scanSlots cfg (p2 cfg).cur es 0).toOption) =
    [some 5, some 5, some 2, some 1, some 0] := by decide

/-- Back-pressure and reset (R42, R43, R110): a sink that does not accept leaves the byte waiting, one
that accepts takes it, and a reset drops it. -/
theorem test_ports :
    let s := { p2 cfg with busy := some { cmd := .render, waiting := [.byte 1, .byte 2] } }
    let pins (reset tx : Bool) : Outside :=
      { script := [], after := { reset := reset, rspAccept := true, txAccept := tx } }
    (after (step { s with outside := pins false false })).map (fun t => (waits t, t.emitted)) =
      some ([.byte 1, .byte 2], []) ∧
    (after (step { s with outside := pins false true })).map (fun t => (waits t, t.emitted)) =
      some ([.byte 2], [1]) ∧
    (after (step { s with outside := pins true true })).map (fun t => (waits t, t.emitted)) =
      some ([], []) := by decide

/-- A reset in the middle of RENDER (R110, R120): the bytes already emitted stay emitted, as output of
the run that was cut, and the observation of the new run is empty. -/
theorem test_reset_cuts_run :
    (after (step { p2 cfg with
        busy := some { cmd := .render, waiting := [.byte 2] }, emitted := [0, 1],
        outside := { script := [],
                     after := { reset := true, rspAccept := true, txAccept := true } } })).map
      (fun t => (t.observe.emitted, t.pastEmitted, waits t)) = some ([], [0, 1], []) := by decide

/-- The observation of R120: P2's ages while the block runs, and no value in a failed run. -/
theorem test_observe : (p2 cfg).observe.cells =
      [some 0, some 1, some 3, some 1, some 2, some 1, some 0, some 0] ∧
    failed.observe.cells = List.replicate 8 none ∧ failed.observe.fault = true := by decide

/-- Assembler lines of R72 and R73. -/
theorem test_assemble :
    assembleLine ['S', 'E', 'T', ' ', '9', ',', ' ', '0', 'x', 'F', ';', 'c'] =
      .ok (.word 0x2F09) ∧
    assembleLine ['K', 'I', 'L', 'L', ' ', '7'] = .ok (.word 0x2007) ∧
    assembleLine ['G', 'E', 'T', ' ', '2', '5', '6'] = .error .outOfRange ∧
    assembleLine [' ', ';', 'x'] = .ok .empty := by decide

/-! ### Witnesses: states and operands that meet the hypotheses of each statement -/

/-- An idle state whose host has one word to send. -/
def sending (s : State) (w : Word) : State := { s with cmds := [w] }

/-- The outside in a steady state. -/
def steady (reset rsp tx : Bool) : Outside :=
  { script := [], after := { reset := reset, rspAccept := rsp, txAccept := tx } }

/-- A state in which a command waits for transfers. -/
def waiting (i : Instr) (ts : List Transfer) : State :=
  { p2 cfg with busy := some { cmd := i, waiting := ts } }

/-- For the statements that assume only a running block (`ClearZeroesBothBuffers`,
`ColorRespondsTheMappedColour`, `RenderCommandsStartTheirFrame`). -/
theorem witness_running : ∃ s : State, s.inv = true ∧ s.faulted = false := ⟨p2 cfg, by decide⟩

theorem witness_EncodeOfDecodeIsTheWord : ∃ (w : Word) (i : Instr), decode w = .ok i :=
  ⟨0x30FE, .get 254, by decide⟩

theorem witness_LegalWordMatchesExactlyItsRow :
    (∃ (w : Word) (i : Instr), decode w = .ok i) ∧ ∃ (w : Word) (r : OpcodeRow), r ∈ opcodeRows ∧ r.accepts w = true :=
  ⟨⟨0x30FE, .get 254, by decide⟩, 0x30FE,
    { mnemonic := "GET", matchBits := 0x3000, maskBits := 0xFF00 }, by decide⟩

theorem witness_IllegalWordRaisesIllegalCommand :
    (∃ (s : State) (w : Word) (rest : List Word) (e : Illegal), s.outside.now.reset = false ∧ s.busy = none ∧ s.cmds = w :: rest ∧
      decode w = .error e ∧ s.faulted = false) ∧
    ∃ (s : State) (w : Word) (rest : List Word) (e : Illegal), s.outside.now.reset = false ∧ s.busy = none ∧ s.cmds = w :: rest ∧
      decode w = .error e ∧ s.faulted = true :=
  ⟨⟨sending (p2 cfg) 0x9001, 0x9001, [], .mustBeZero, by decide⟩,
    sending failed 0xA000, 0xA000, [], .reservedOpcode, by decide⟩

/-- The clauses of `AssemblerExpandsEveryForm`: an ill-formed line, the last operands in range, as
decimal and as hexadecimal text, the first out of range, and a line with no comment. -/
theorem witness_AssemblerExpandsEveryForm :
    (∃ c : AsmCmd, c.wf = false) ∧
    (∃ (ds es : List Char) (x : Byte) (a : BitVec 4), parseNumber ds = some x.toNat ∧
      parseNumber es = some a.toNat ∧ x = 255 ∧ a = 15) ∧
    (∃ (ds : List Char) (n : Nat), parseNumber ds = some n ∧ 255 < n ∧ n = 256) ∧
    (∃ (es : List Char) (k : Nat), parseNumber es = some k ∧ 15 < k ∧ k = 16) ∧
    ∃ line : List Char, ';' ∉ line ∧ line ≠ [] :=
  ⟨⟨.set 0 16, by decide⟩, ⟨['2', '5', '5'], ['0', 'x', 'F'], 255, 15, by decide⟩,
    ⟨['2', '5', '6'], 256, by decide⟩, ⟨['0', 'x', '1', '0'], 16, by decide⟩,
    ['N', 'O', 'P'], by decide⟩

theorem witness_StepRunsTheDecodedCommand : ∃ (s : State) (w : Word) (rest : List Word) (i : Instr), s.outside.now.reset = false ∧
    s.busy = none ∧ s.cmds = w :: rest ∧ decode w = .ok i :=
  ⟨sending (p2 cfg) 0x30FE, 0x30FE, [], .get 254, by decide⟩

theorem witness_BusyPortTakesNoWord : ∃ (s : State) (t : State) (p : InProgress), s.busy = some p ∧ s.outside.now.reset = false ∧
    step s = .next t :=
  ⟨waiting .render [.byte 0, .byte 0], _, _, rfl, by decide, rfl⟩

theorem witness_TransferWaitsForItsReceiver :
    (∃ (s : State) (i : Instr) (w : Rsp) (rest : List Transfer), s.outside.now.reset = false ∧
      s.busy = some { cmd := i, waiting := .response w :: rest } ∧ rest = []) ∧
    ∃ (s : State) (i : Instr) (b : Byte) (rest : List Transfer), s.outside.now.reset = false ∧
      s.busy = some { cmd := i, waiting := .byte b :: rest } ∧ rest ≠ [] :=
  ⟨⟨waiting .status [.response 0], .status, 0, [], by decide⟩,
    waiting .render [.byte 0, .byte 1], .render, 0, [.byte 1], by decide⟩

theorem witness_ReceiverThatNeverAcceptsHangsTheBlock :
    (∃ (s : State) (i : Instr) (w : Rsp) (rest : List Transfer) (pins : Pins), s.busy = some { cmd := i, waiting := .response w :: rest } ∧
      s.outside = { script := [], after := pins } ∧ pins.reset = false ∧ pins.rspAccept = false) ∧
    ∃ (s : State) (i : Instr) (b : Byte) (rest : List Transfer) (pins : Pins), s.busy = some { cmd := i, waiting := .byte b :: rest } ∧
      s.outside = { script := [], after := pins } ∧ pins.reset = false ∧ pins.txAccept = false :=
  ⟨⟨{ waiting .status [.response 0] with outside := steady false false true }, .status, 0, [],
      (steady false false true).after, by decide⟩,
    { waiting .render [.byte 0] with outside := steady false true false }, .render, 0, [],
      (steady false true false).after, by decide⟩

/-- `AcceptedOutputIsNeverTakenBack`, `NoStepChangesConfiguration`. -/
theorem witness_step : ∃ (s : State) (t : State), step s = .next t := ⟨p2 cfg, _, rfl⟩

/-- `ResponseIsDeliveredOnce`, for each of the three commands that respond. -/
theorem witness_ResponseIsDeliveredOnce : ∀ i : Instr,
    i ∈ [.get 1, .color 40, .status] → ∃ (s : State) (r : Rsp) (rest : List Word) (pins : Pins), s.busy = none ∧
      s.cmds = encode i :: rest ∧ s.outside = { script := [], after := pins } ∧
      pins.reset = false ∧ pins.rspAccept = true ∧
      exec i { s with cmds := rest } =
        .next { s with cmds := rest, busy := some { cmd := i, waiting := [.response r] } } := by
  intro i hi
  refine ⟨sending (p2 cfg) (encode i), ?_⟩
  simp only [List.mem_cons, List.not_mem_nil, or_false] at hi
  rcases hi with rfl | rfl | rfl
  · exact ⟨1, [], _, rfl, rfl, rfl, rfl, rfl, rfl⟩
  · exact ⟨0x120900, [], _, rfl, rfl, rfl, rfl, rfl, rfl⟩
  · exact ⟨0, [], _, rfl, rfl, rfl, rfl, rfl, rfl⟩

/-- `ResetInputGivesResetState`, `ResetAbandonsTheCommandInProgress`, `ResetStartsARun`. -/
theorem witness_reset_input : ∃ (s : State) (k : Nat), s.outside.now.reset = true ∧ k < s.config.storeBytes ∧
    s.busy ≠ none :=
  ⟨{ waiting .render [.byte 0] with outside := steady true true true }, 1, by decide⟩

theorem witness_OnlyTheFirstFaultIsRecorded :
    (∃ s : State, s.faulted = false) ∧ ∃ s : State, s.faulted = true :=
  ⟨⟨p2 cfg, by decide⟩, failed, by decide⟩

theorem witness_FaultedBlockDiscardsAllButStatus : ∀ w : Word, w ∈ [0x9000, 0x9001, 0x2100] →
    ∃ (s : State) (rest : List Word), s.faulted = true ∧ s.outside.now.reset = false ∧ s.busy = none ∧
      s.cmds = w :: rest :=
  fun w _ => ⟨sending failed w, [], rfl, rfl, rfl, rfl⟩

/-- `FaultIsOneOfTheTable`: a step that sets FAULTED, for each of the five codes. -/
theorem witness_FaultIsOneOfTheTable :
    [sending (p2 cfg) 0xA000, sending (p2 cfg) 0x2108, sending (p2 badTopo) 0x5000,
     sending (p2 cfg) 0x4000, sending (p2 { cfg with seed := [1, 2] }) 0x4000].map
      (fun s => (s.faulted, (after (step s)).map (fun t => (t.faulted, t.faultCode)))) =
    [(false, some (true, 1)), (false, some (true, 2)), (false, some (true, 3)),
     (false, some (true, 4)), (false, some (true, 5))] := by decide

theorem witness_AdvanceCannotFaultWith255Cells : ∃ s : State, s.config.cells = 255 ∧
    s.faulted = false := ⟨st refCfg [] [], by decide⟩

theorem witness_OnlyAdvanceChangesActive : ∃ (s : State) (t : State), step s = .next t ∧
    s.outside.now.reset = false ∧ t.active ≠ s.active :=
  ⟨sending (p2 cfg) 0x5000, _, rfl, by decide, by decide⟩

theorem witness_OnlyStoreCommandsChangeTheStore :
    (∃ (s : State) (t : State), step s = .next t ∧ s.outside.now.reset = false ∧ t.mem s.active ≠ s.mem s.active) ∧
    ∃ (s : State) (t : State), step s = .next t ∧ s.outside.now.reset = false ∧
      t.mem s.active.other ≠ s.mem s.active.other :=
  ⟨⟨sending (p2 cfg) 0x2300, _, rfl, by decide, by decide⟩,
    sending (p2 cfg) 0x5000, _, rfl, by decide, by decide⟩

/-- `OutputsDependOnCurrentCellsOnly`: two states with N = 5 that differ in a padding slot of the
current buffer (byte 1, bits 7:6) and in the next buffer. -/
theorem witness_OutputsDependOnCurrentCellsOnly : ∃ s s' : State, s.inv = true ∧ s'.inv = true ∧
    SameControl s s' ∧ s.outside.now.reset = false ∧
    (∀ idx, idx < s.config.cells → s'.age idx = s.age idx) ∧ s ≠ s' :=
  ⟨st { cfg with cells := 5 } [(0, 0xE4), (1, 0x01)] [],
    st { cfg with cells := 5 } [(0, 0xE4), (1, 0xC1)] [(0, 0x55)], by decide, by decide,
    ⟨rfl, rfl, rfl, rfl, rfl, rfl, rfl, rfl, rfl, rfl, rfl, rfl, rfl⟩, by decide, by decide, by decide⟩

theorem witness_RepeatedCommandHasNoFurtherEffect : ∃ (i : Instr) (s : State) (t : State) (u : State), s.inv = true ∧ i ≠ .advance ∧
    exec i s = .next t ∧ exec i t = .next u ∧ t ≠ s :=
  ⟨.set 1 3, p2 cfg, _, _, by decide, by decide, rfl, rfl, by decide⟩

theorem witness_StepKeepsInvariant : ∃ (s : State) (t : State), s.inv = true ∧ step s = .next t ∧ t ≠ s :=
  ⟨sending (p2 cfg) 0x5000, _, by decide, rfl, by decide⟩

theorem witness_CellLayoutInItsByte : ∃ (c : Config) (s : Nat), s < 8 / c.bpv.bits ∧ s = 3 :=
  ⟨cfg, 3, by decide⟩

theorem witness_SetReplacesOnlyTheSlotBits : ∃ (c : Config) (m : Memory) (idx : Nat),
    Memory.wf c.storeBytes m = true ∧ idx < c.cells ∧ idx + 1 = c.cells :=
  ⟨cfg, [(0, 0x74), (1, 0x06)], 7, by decide⟩

/-- `SetWritesOneCellOrFaults`, `GetRespondsTheAgeOrFaults`: the last cell and on the first index that is none. -/
theorem witness_index_bounds :
    (∃ (s : State) (x : Byte), s.inv = true ∧ s.faulted = false ∧ x.toNat < s.config.cells ∧
      x.toNat + 1 = s.config.cells) ∧
    ∃ (s : State) (x : Byte), s.inv = true ∧ s.faulted = false ∧ s.config.cells ≤ x.toNat ∧
      x.toNat = s.config.cells :=
  ⟨⟨p2 cfg, 7, by decide⟩, p2 cfg, 8, by decide⟩

theorem witness_GetAfterSetReadsWhatWasWritten :
    (∃ (s t : State) (x y : Byte) (a : BitVec 4), s.inv = true ∧ s.faulted = false ∧
      x.toNat < s.config.cells ∧ y.toNat < s.config.cells ∧ exec (.set x a) s = .next t ∧ y = x) ∧
    ∃ (s t : State) (x y : Byte) (a : BitVec 4), s.inv = true ∧ s.faulted = false ∧
      x.toNat < s.config.cells ∧ y.toNat < s.config.cells ∧ exec (.set x a) s = .next t ∧ y ≠ x :=
  ⟨⟨p2 cfg, _, 7, 7, 3, by decide, by decide, by decide, by decide, rfl, rfl⟩,
    p2 cfg, _, 7, 6, 3, by decide, by decide, by decide, by decide, rfl, by decide⟩

/-- The three clauses of `LoadSeedSetsTheListedCells`. -/
theorem witness_LoadSeedSetsTheListedCells :
    (∃ (s : State) (pre : List Byte) (post : List Byte), s.inv = true ∧ s.faulted = false ∧
      (∀ e ∈ pre, e ≠ 0 ∧ e.toNat < s.config.cells) ∧ s.config.seed = pre ++ 0 :: post) ∧
    (∃ (s : State) (pre : List Byte) (e : Byte) (post : List Byte), s.inv = true ∧ s.faulted = false ∧
      (∀ e ∈ pre, e ≠ 0 ∧ e.toNat < s.config.cells) ∧ s.config.seed = pre ++ e :: post ∧
      e ≠ 0 ∧ s.config.cells ≤ e.toNat) ∧
    ∃ (s : State) (pre : List Byte), s.inv = true ∧ s.faulted = false ∧
      (∀ e ∈ pre, e ≠ 0 ∧ e.toNat < s.config.cells) ∧ s.config.seed = pre :=
  ⟨⟨st { cfg with seed := [7, 0, 9] } [] [], [7], [9], by decide⟩,
    ⟨st cfg [] [], [3], 9, [0], by decide⟩,
    st { cfg with seed := [1, 7] } [] [], [1, 7], by decide⟩

/-- The four clauses of `TransitionTableAndRule`. -/
theorem witness_TransitionTableAndRule :
    (∃ v n : Nat, 0 < v ∧ (n = 2 ∨ n = 3)) ∧ (∃ v n : Nat, 0 < v ∧ n ≠ 2 ∧ n ≠ 3) ∧
    (∃ v n : Nat, v = 0 ∧ (n = 2 ∨ n = 5)) ∧ ∃ v n : Nat, v = 0 ∧ n ≠ 2 ∧ n ≠ 5 :=
  ⟨⟨1, 3, by decide⟩, ⟨1, 5, by decide⟩, ⟨0, 5, by decide⟩, 0, 3, by decide⟩

theorem witness_LiveCountCountsListedLiveNeighbours :
    listsOnlyCells cfg 5 = true ∧
    ∃ (pre : List Byte) (x : Byte) (post : List Byte), ((List.range badTopo.slots).map (badTopo.topo 3)).takeWhile (fun e => e != 0xFF) =
      pre ++ x :: post ∧ (∀ e ∈ pre, e.toNat < badTopo.cells) ∧ badTopo.cells ≤ x.toNat :=
  ⟨by decide, [1], 0x09, [], by decide⟩

/-- The two clauses of `AdvanceComputesTheNextGeneration`, with a padding slot (N = 5). -/
theorem witness_AdvanceComputesTheNextGeneration :
    (∃ s : State, s.inv = true ∧ s.faulted = false ∧
      (∀ c, c < s.config.cells → listsOnlyCells s.config c = true) ∧
      s.config.cells < s.config.storeBytes * s.config.valuesPerByte) ∧
    ∃ (s : State) (c : Nat) (pre : List Byte) (x : Byte) (post : List Byte), s.inv = true ∧
      s.faulted = false ∧ c < s.config.cells ∧
      (∀ c', c' < c → listsOnlyCells s.config c' = true) ∧
      listedEntries s.config c = pre ++ x :: post ∧
      (∀ e ∈ pre, e.toNat < s.config.cells) ∧ s.config.cells ≤ x.toNat :=
  ⟨⟨st { cfg with cells := 5, topology := List.replicate 5 [1, 2, 4, 0xFF, 0xFF, 0xFF] }
      [(0, 0xE4), (1, 0x01)] [], by decide⟩,
    p2 badTopo, 3, [1], 0x09, [], by decide⟩

theorem witness_AdvanceOfAllDeadStaysDead : ∃ (s : State) (t : State), s.inv = true ∧ s.faulted = false ∧
    (∀ c, c < s.config.cells → listsOnlyCells s.config c = true) ∧
    (∀ c, c < s.config.cells → s.age c = 0) ∧ exec .advance s = .next t :=
  ⟨st cfg [] [], _, by decide, by decide, by decide, by decide, rfl⟩

/-- The last palette entry and the first fallback value. -/
theorem witness_MapIsPaletteOrFlame :
    (∃ (c : Config) (v : Byte), v.toNat < c.palette.length ∧ v.toNat + 1 = c.palette.length) ∧
    ∃ (c : Config) (v : Byte), c.palette.length ≤ v.toNat ∧ v.toNat = c.palette.length :=
  ⟨⟨cfg, 3, by decide⟩, cfg, 4, by decide⟩

theorem witness_RenderNeverUsesTheFallback : ∃ s : State, s.config.wf = true ∧ s.faulted = false :=
  ⟨p2 cfg, by decide⟩

theorem witness_FrameLayout : ∃ (c : Config) (i m j : Nat), i < c.cells ∧ m < 3 ∧
    j < (c.cells + 15) / 16 + 1 ∧ i = 7 ∧ m = 2 ∧ j = 1 := ⟨cfg, 7, 2, 1, by decide⟩

/-- Both render commands, at the first and the last byte of the frame. -/
theorem witness_RenderEmitsItsWholeFrame : ∀ (i : Instr) (k : Nat), i ∈ [.render, .renderFill 40] →
    k ∈ [1, 38] → ∃ (s : State) (frame : List Byte) (rest : List Word) (pins : Pins), s.busy = none ∧ s.faulted = false ∧
      s.cmds = encode i :: rest ∧ s.outside = { script := [], after := pins } ∧
      pins.reset = false ∧ pins.txAccept = true ∧
      ((i = .render ∧ frame = frameBytes s.config (fun c => mapColour s.config (s.age c))) ∨
        ∃ (x : Byte), i = .renderFill x ∧ frame = frameBytes s.config (fun _ => mapColour s.config x)) ∧
      k ≤ 4 + 4 * s.config.cells + ((s.config.cells + 15) / 16 + 1) := by
  intro i k hi hk
  simp only [List.mem_cons, List.not_mem_nil, or_false] at hi hk
  have hk' : k ≤ 4 + 4 * cfg.cells + ((cfg.cells + 15) / 16 + 1) := by
    rcases hk with rfl | rfl <;> decide
  rcases hi with rfl | rfl
  · exact ⟨sending (p2 cfg) 0x7000, _, [], _, rfl, rfl, rfl, rfl, rfl, rfl, .inl ⟨rfl, rfl⟩, hk'⟩
  · exact ⟨sending (p2 cfg) 0x8028, _, [], _, rfl, rfl, rfl, rfl, rfl, rfl,
      .inr ⟨40, rfl, rfl⟩, hk'⟩

/-- `ObservationShowsWhatGetReturns`: the last cell of a running and of a faulted state. -/
theorem witness_ObservationShowsWhatGetReturns : ∀ f : Bool, ∃ (s : State) (x : Byte),
    s.faulted = f ∧ x.toNat < s.config.cells ∧ x.toNat + 1 = s.config.cells := by
  intro f
  cases f
  · exact ⟨p2 cfg, 7, by decide⟩
  · exact ⟨failed, 7, by decide⟩

/-- `ObservationShowsNothingBeyondGet`: two faulted states with other ages, and two running states
that differ in the next buffer. -/
theorem witness_ObservationShowsNothingBeyondGet :
    (∃ s s' : State, SameControl s s' ∧ s.faulted = true ∧ s'.age 1 ≠ s.age 1) ∧
    ∃ s s' : State, SameControl s s' ∧ s.faulted = false ∧
      (∀ idx, idx < s.config.cells → s'.age idx = s.age idx) ∧ s ≠ s' :=
  ⟨⟨failed, { failed with b0 := [] },
      ⟨rfl, rfl, rfl, rfl, rfl, rfl, rfl, rfl, rfl, rfl, rfl, rfl, rfl⟩, by decide, by decide⟩,
    p2 cfg, { p2 cfg with b1 := [(0, 0x55)] },
    ⟨rfl, rfl, rfl, rfl, rfl, rfl, rfl, rfl, rfl, rfl, rfl, rfl, rfl⟩, by decide, by decide, by decide⟩

/-- `ObservationIsOfTheRunSinceReset`: an ended run of one STATUS after a run that sent a byte. -/
theorem witness_ObservationIsOfTheRunSinceReset : ∃ s t : State, EndedRun s t ∧
    s.allEmitted ≠ [] ∧ t.observe.responses ≠ [] :=
  ⟨{ sending (p2 cfg) 0x9000 with pastEmitted := [7] }, _,
    ⟨by decide, runsTo_of_core_run rfl 2 rfl rfl, by decide⟩, by decide, by decide⟩

/-- `EndedRunEmitsWholeFrames`, `EndedRenderRunShowsItsFrame`: an ended run of each render command,
with one cell. -/
theorem witness_EndedRenderRunShowsItsFrame : ∀ i : Instr, i ∈ [.render, .renderFill 40] →
    ∃ s t : State, EndedRun s t ∧ s.cmds = [encode i] ∧ t.observe.emitted ≠ [] := by
  intro i hi
  simp only [List.mem_cons, List.not_mem_nil, or_false] at hi
  rcases hi with rfl | rfl
  · exact ⟨sending (st { cfg with cells := 1 } [(0, 0x03)] []) 0x7000, _,
      ⟨by decide, runsTo_of_core_run rfl 11 rfl rfl, by decide⟩, by decide, by decide⟩
  · exact ⟨sending (st { cfg with cells := 1 } [(0, 0x03)] []) 0x8028, _,
      ⟨by decide, runsTo_of_core_run rfl 11 rfl rfl, by decide⟩, by decide, by decide⟩

end Sys2Proof.Tests
end

/-! PROOFS. The state: a command in progress keeps the port and the block still (R47, R108), and
every packed age is in range (R39). -/

namespace Sys2Proof.Machine

/-- A step without reset while a command is in progress serves that command. -/
theorem step_of_busy {s t : State} {p : InProgress} (hb : s.busy = some p)
    (hr : s.outside.now.reset = false) (h : step s = .next t) :
    t = s.tick.serve s.outside.now p := by
  rcases step_cases h with ⟨hr', -⟩ | ⟨-, ⟨q, hq, ht⟩ | ⟨hn, -⟩ | ⟨_, _, _, hn, -⟩ |
    ⟨_, _, _, hn, -⟩⟩
  case inr.inl =>
    cases hb.symm.trans hq
    exact ht
  case inl => simp [hr] at hr'
  all_goals simp [hb] at hn

/-- The command in progress of a state, if there is one, is `cmd`. -/
def State.busyOnlyWith (s : State) (cmd : Instr) : Prop :=
  s.busy = none ∨ ∃ q, s.busy = some q ∧ q.cmd = cmd

/-- An accepted transfer completes the command or leaves it with fewer transfers (R42, R43). -/
theorem State.accepted_busyOnlyWith (s : State) (p : InProgress) (rest : List Transfer) :
    (s.accepted p rest).busyOnlyWith p.cmd := by
  by_cases hrest : rest = []
  · exact .inl (by simp [hrest])
  · exact .inr ⟨{ p with waiting := rest }, by simp [hrest], rfl⟩

/-- Serving the command in progress completes it or leaves that same command in progress (R47). -/
theorem State.serve_busyOnlyWith {s : State} {p : InProgress} (hb : s.busy = some p)
    (pins : Pins) : (s.serve pins p).busyOnlyWith p.cmd := by
  have hwait : s.busyOnlyWith p.cmd := .inr ⟨p, hb, rfl⟩
  unfold State.serve
  split
  case h_1 => exact .inl rfl
  case h_2 w rest _ =>
    split
    · exact s.accepted_busyOnlyWith p rest
    · exact hwait
  case h_3 b rest _ =>
    split
    · exact s.accepted_busyOnlyWith p rest
    · exact hwait

/-- Settles O9: the step serves the command in progress, and serving writes only `busy` and the
accepted output. -/
theorem busyPortTakesNoWord : Obligations.BusyPortTakesNoWord := by
  intro s t p hb hr h
  obtain rfl := step_of_busy hb hr h
  have hbusy : (s.tick.serve s.outside.now p).busyOnlyWith p.cmd :=
    State.serve_busyOnlyWith (s := s.tick) hb s.outside.now
  simpa [State.busyOnlyWith] using hbusy

/-- Settles O28: reading masks the age to BPV bits (`getCell_le_maxAge`), whatever the byte is. -/
theorem everyAgeIsInRange : Obligations.EveryAgeIsInRange :=
  fun s b idx => getCell_le_maxAge s.config (s.mem b) idx

end Sys2Proof.Machine

/-! PROOFS. The packed buffer, bit by bit: where a cell's bits lie in its byte (R51), and what `set`
replaces in it (R50). -/

namespace Sys2Proof.Machine

/-- Slot `s` of byte `k` is a cell of byte `k` (R51). -/
theorem byteIndex_mul_add (c : Config) (k : Nat) {s : Nat} (hs : s < c.valuesPerByte) :
    byteIndex c (c.valuesPerByte * k + s) = k := by
  rw [byteIndex, Nat.mul_add_div (valuesPerByte_pos c), Nat.div_eq_of_lt hs, Nat.add_zero]

/-- Slot `s` of a byte begins at bit BPV * s (R51). -/
theorem bitShift_mul_add (c : Config) (k : Nat) {s : Nat} (hs : s < c.valuesPerByte) :
    bitShift c (c.valuesPerByte * k + s) = c.bpv.bits * s := by
  rw [bitShift, Nat.mul_add_mod, Nat.mod_eq_of_lt hs, Nat.mul_comm]

theorem getLsbD_getCell (c : Config) (m : Memory) (idx i : Nat) :
    (getCell c m idx).getLsbD i =
      (decide (i < c.bpv.bits) && (m.read (byteIndex c idx)).getLsbD (bitShift c idx + i)) := by
  rw [getCell, getLsbD_unpackAge, Bool.and_comm]

/-- `set` replaces the byte of its cell by that byte with the slot replaced. -/
theorem read_setCell_same {c : Config} {n : Nat} {m : Memory} (hm : Memory.wf n m = true)
    (idx : Nat) (v : Byte) : (setCell c m idx v).read (byteIndex c idx) =
      packAge c (m.read (byteIndex c idx)) (bitShift c idx) v :=
  Memory.read_write_same _ _ hm

theorem read_setCell_other (c : Config) (m : Memory) {idx k : Nat} (hk : k ≠ byteIndex c idx)
    (v : Byte) : (setCell c m idx v).read k = m.read k :=
  Memory.read_write_other _ _ hk

/-- Settles O30: the cell's byte is repacked (`read_setCell_same`), which replaces exactly the bits
of the slot (`getLsbD_packAge`); no other byte is written (`read_setCell_other`). -/
theorem setReplacesOnlyTheSlotBits : Obligations.SetReplacesOnlyTheSlotBits := by
  intro c m idx v hm _
  refine ⟨fun i hi => ?_, fun k hk => read_setCell_other c m hk v⟩
  rw [show idx / c.valuesPerByte = byteIndex c idx from rfl, read_setCell_same hm,
    getLsbD_packAge]
  simp only [hi, and_true]

/-- Settles O29: `get` reads the slot at the cell's byte and bit offset, which the cell number
VPB * k + s splits into. -/
theorem cellLayoutInItsByte : Obligations.CellLayoutInItsByte := by
  intro c m k s i hs
  change s < c.valuesPerByte at hs
  change (getCell c m (c.valuesPerByte * k + s)).getLsbD i = _
  rw [getLsbD_getCell, byteIndex_mul_add c k hs, bitShift_mul_add c k hs]

end Sys2Proof.Machine

/-! PROOFS. The command encoding: the fields of a word (R67), what a row of the opcode map accepts
(R69), and which words are illegal (R70). -/

namespace Sys2Proof

@[simp] theorem opField_packWord (op a : BitVec 4) (x : Byte) : opField (packWord op a x) = op := by
  rw [opField, packWord, BitVec.extractLsb'_append_eq_of_le (by decide)]
  exact BitVec.extractLsb'_append_eq_left

@[simp] theorem aField_packWord (op a : BitVec 4) (x : Byte) : aField (packWord op a x) = a := by
  rw [aField, packWord, BitVec.extractLsb'_append_eq_of_le (by decide)]
  exact BitVec.extractLsb'_append_eq_right

@[simp] theorem xField_packWord (op a : BitVec 4) (x : Byte) : xField (packWord op a x) = x :=
  BitVec.extractLsb'_append_eq_right

/-- A word is made of its three fields (R67). -/
theorem packWord_fields (w : Word) : packWord (opField w) (aField w) (xField w) = w := by
  have hopa : opField w ++ aField w = w.extractLsb' 8 8 :=
    BitVec.extractLsb'_append_extractLsb'_eq_extractLsb' rfl
  have hw : w.extractLsb' 8 8 ++ xField w = w.extractLsb' 0 16 :=
    BitVec.extractLsb'_append_extractLsb'_eq_extractLsb' rfl
  rw [packWord, hopa, hw, BitVec.extractLsb'_eq_self]

theorem eq_packWord_iff {w : Word} {op a : BitVec 4} {x : Byte} :
    w = packWord op a x ↔ opField w = op ∧ aField w = a ∧ xField w = x := by
  constructor
  · rintro rfl
    simp
  · rintro ⟨rfl, rfl, rfl⟩
    exact (packWord_fields w).symm

/-! ### The three kinds of row -/

/-- The row of a command with no operand. -/
def OpcodeRow.bare (mnemonic : String) (op : BitVec 4) : OpcodeRow :=
  { mnemonic := mnemonic, matchBits := packWord op 0 0, maskBits := 0xFFFF }

/-- The row of a command with operand X alone. -/
def OpcodeRow.withX (mnemonic : String) (op : BitVec 4) : OpcodeRow :=
  { mnemonic := mnemonic, matchBits := packWord op 0 0, maskBits := 0xFF00 }

/-- The row of a command with operands A and X. -/
def OpcodeRow.withAX (mnemonic : String) (op : BitVec 4) : OpcodeRow :=
  { mnemonic := mnemonic, matchBits := packWord op 0 0, maskBits := 0xF000 }

theorem opcodeRows_eq : opcodeRows =
    [.bare "NOP" 0, .bare "CLEAR" 1, .withAX "SET" 2, .withX "GET" 3, .bare "LOAD_SEED" 4,
      .bare "ADVANCE" 5, .withX "COLOR" 6, .bare "RENDER" 7, .withX "RENDER_FILL" 8,
      .bare "STATUS" 9] := rfl

@[simp] theorem OpcodeRow.bare_accepts (m : String) (op : BitVec 4) (w : Word) :
    (OpcodeRow.bare m op).accepts w = true ↔ opField w = op ∧ aField w = 0 ∧ xField w = 0 := by
  have hmask : w &&& 0xFFFF = w := BitVec.and_allOnes
  rw [OpcodeRow.accepts, OpcodeRow.bare, hmask, beq_iff_eq, eq_packWord_iff]

@[simp] theorem OpcodeRow.withX_accepts (m : String) (op : BitVec 4) (w : Word) :
    (OpcodeRow.withX m op).accepts w = true ↔ opField w = op ∧ aField w = 0 := by
  have hmask : w &&& 0xFF00 = packWord (opField w) (aField w) 0 := by
    rw [← Laws.OpcodeRow.packWord_and_opA _ _ (xField w), packWord_fields]
  rw [OpcodeRow.accepts, OpcodeRow.withX, hmask, beq_iff_eq, eq_packWord_iff]
  simp

@[simp] theorem OpcodeRow.withAX_accepts (m : String) (op : BitVec 4) (w : Word) :
    (OpcodeRow.withAX m op).accepts w = true ↔ opField w = op := by
  have hmask : w &&& 0xF000 = packWord (opField w) 0 0 := by
    rw [← Laws.OpcodeRow.packWord_and_op _ (aField w) (xField w), packWord_fields]
  rw [OpcodeRow.accepts, OpcodeRow.withAX, hmask, beq_iff_eq, eq_packWord_iff]
  simp

/-! ### Illegal words -/

theorem decodeBare_error_iff {i : Instr} {w : Word} :
    (∃ e, decodeBare i w = .error e) ↔ ¬(aField w = 0 ∧ xField w = 0) := by
  unfold decodeBare
  split <;> simp_all

theorem decodeX_error_iff {i : Byte → Instr} {w : Word} :
    (∃ e, decodeX i w = .error e) ↔ aField w ≠ 0 := by
  unfold decodeX
  split <;> simp_all

/-- A word is illegal exactly when it matches no row (R69, R70): at each OP only its own row is left,
and the decoder of that row checks what its mask selects. -/
theorem decode_error_iff_no_row {w : Word} :
    (∃ e, decode w = .error e) ↔ ∀ r ∈ opcodeRows, r.accepts w = false := by
  simp only [opcodeRows_eq, List.forall_mem_cons, ← Bool.not_eq_true, OpcodeRow.bare_accepts,
    OpcodeRow.withX_accepts, OpcodeRow.withAX_accepts, ← BitVec.toNat_inj (x := opField w)]
  unfold decode
  split
  -- SET, then the rows with operand X alone, the rows with none, and a reserved OP
  case h_3 hop => simp [hop]
  case h_4 hop | h_7 hop | h_9 hop => simp [hop, decodeX_error_iff]
  case h_1 hop | h_2 hop | h_5 hop | h_6 hop | h_8 hop | h_10 hop =>
    simp [hop, decodeBare_error_iff]
  case h_11 => simp_all

theorem decode_of_reserved {w : Word} (h : 10 ≤ (opField w).toNat) :
    decode w = .error .reservedOpcode := by
  unfold decode
  split
  case h_11 => rfl
  all_goals omega

end Sys2Proof

namespace Sys2Proof.Machine

theorem State.raiseFault_of_running {s : State} (h : s.faulted = false) (c : FaultCode) (i : Word) :
    s.raiseFault c i = { s with faulted := true, faultCode := c.bits, faultInfo := i } := by
  simp [State.raiseFault, h]

/-- The step in which an idle block takes an illegal word (R70). -/
theorem step_of_illegal {s : State} {w : Word} {rest : List Word} {e : Illegal}
    (hr : s.outside.now.reset = false) (hb : s.busy = none) (hc : s.cmds = w :: rest)
    (hd : decode w = .error e) :
    step s = .next (s.tick.takeWord.raiseFault .illegalCommand w) := by
  simp [step, stepBlock, runWord, hr, hb, hc, hd]

theorem tick_takeWord_of_cmds {s : State} {w : Word} {rest : List Word} (hc : s.cmds = w :: rest) :
    s.tick.takeWord = { s with cmds := rest, outside := s.outside.later } := by
  simp [State.tick, State.takeWord, hc]

/-- Settles O6: a word is illegal exactly when it matches no row (`decode_error_iff_no_row`), which
covers the reserved OPs (`decode_of_reserved`); the step that takes it raises the fault
(`step_of_illegal`), and FAULTED = 1 discards the fault. -/
theorem illegalWordRaisesIllegalCommand : Obligations.IllegalWordRaisesIllegalCommand := by
  refine ⟨fun w => ⟨fun h => .inr (decode_error_iff_no_row.mp h), ?_⟩,
    fun s w rest e hr hb hc hd => ?_⟩
  · rintro (hop | hrow)
    · exact ⟨_, decode_of_reserved hop⟩
    · exact decode_error_iff_no_row.mpr hrow
  · rw [step_of_illegal hr hb hc hd]
    refine ⟨fun hf => ?_, fun hf => ?_⟩
    · rw [State.raiseFault_of_running (s := s.tick.takeWord) hf, tick_takeWord_of_cmds hc]
      rfl
    · rw [State.raiseFault_of_faulted (s := s.tick.takeWord) hf, tick_takeWord_of_cmds hc]

end Sys2Proof.Machine

/-! PROOFS. The store commands: CLEAR (R75), SET (R76), GET (R77) and LOAD_SEED (R78). -/

namespace Sys2Proof.Machine

/-- Masking to BPV bits is the remainder by 2^BPV (R50). -/
theorem toNat_and_ageMask (c : Config) (v : Byte) :
    (v &&& c.ageMask).toNat = v.toNat % 2 ^ c.bpv.bits := by
  rw [BitVec.toNat_and, ageMask_toNat, Config.maxAge, Nat.and_two_pow_sub_one_eq_mod]

/-- `get` as the formula of R49 on numbers. -/
theorem toNat_getCell (c : Config) (m : Memory) (idx : Nat) :
    (getCell c m idx).toNat =
      (m.read (byteIndex c idx)).toNat / 2 ^ bitShift c idx % 2 ^ c.bpv.bits := by
  rw [getCell, unpackAge, toNat_and_ageMask, BitVec.toNat_ushiftRight, Nat.shiftRight_eq_div_pow]

@[simp] theorem getCell_nil (c : Config) (idx : Nat) : getCell c [] idx = 0 := by
  simp [getCell, unpackAge]

@[simp] theorem ageOperand_toNat (a : BitVec 4) : (ageOperand a).toNat = a.toNat :=
  BitVec.toNat_setWidth_of_le (by decide)

@[simp] theorem ageResponse_toNat (age : Byte) : (ageResponse age).toNat = age.toNat :=
  BitVec.toNat_setWidth_of_le (by decide)

theorem State.age_setMem_active (s : State) (m : Memory) (idx : Nat) :
    (s.setMem s.active m).age idx = getCell s.config m idx := by
  rw [State.age, State.setMem_config, State.cur_setMem_active]

theorem SameControl.setMem (s : State) (b : Buf) (m : Memory) : SameControl s (s.setMem b m) := by
  constructor <;> simp

/-- Whether the buffer is written before the fault is taken or after it makes no difference. -/
theorem State.setMem_raiseFault (s : State) (b : Buf) (m : Memory) (code : FaultCode)
    (info : Word) : (s.setMem b m).raiseFault code info = (s.raiseFault code info).setMem b m := by
  cases hf : s.faulted
  case true =>
    rw [State.raiseFault_of_faulted hf, State.raiseFault_of_faulted (by simpa using hf)]
  case false =>
    rw [State.raiseFault_of_running hf, State.raiseFault_of_running (by simpa using hf)]
    cases b <;> rfl

/-- A pass over the current buffer that ends leaves ACTIVE as it is. -/
theorem State.finishPass_active_done (s : State) (m : Memory) :
    s.finishPass s.active (.done m) = s.setMem s.active m := by
  cases h : s.active <;> simp [State.finishPass, State.setMem, ← h]

/-- A pass that stops at a fault while FAULTED = 0 leaves what it wrote and the fault status
(R97). -/
theorem State.finishPass_stopped {s : State} (h : s.faulted = false) (b : Buf) (m : Memory)
    (code : FaultCode) (info : Word) : s.finishPass b (.stopped m code info) =
      { s with faulted := true, faultCode := code.bits, faultInfo := info }.setMem b m := by
  rw [State.finishPass, State.setMem_raiseFault, State.raiseFault_of_running h]

/-- Under the invariant CLEAR leaves both buffers with no byte listed (R75). -/
theorem exec_clear_of_inv {s : State} (hinv : s.inv = true) (hf : s.faulted = false) :
    exec .clear s = .next { s with b0 := [], b1 := [] } := by
  have h0 : clearBuffer s.config s.b0 = [] := clearBuffer_eq_nil (wf_mem_of_inv hinv .b0)
  have h1 : clearBuffer s.config s.b1 = [] := clearBuffer_eq_nil (wf_mem_of_inv hinv .b1)
  rw [exec_clear hf, h0, h1]

/-- Settles O31: CLEAR leaves both buffers with no byte listed (`exec_clear_of_inv`), so every byte
and every age of either reads as 0. -/
theorem clearZeroesBothBuffers : Obligations.ClearZeroesBothBuffers := by
  intro s hinv hf
  have hmem : ∀ b, State.mem { s with b0 := [], b1 := [] } b = [] := by
    intro b
    cases b <;> rfl
  refine ⟨_, exec_clear_of_inv hinv hf, fun b k _ => ?_, fun b idx => ?_, by constructor <;> rfl⟩
  · rw [hmem, Memory.read_nil]
  · rw [hmem, getCell_nil]

/-- Settles O32: SET replaces the current buffer by one `set` of it (`exec_set`), and `set` writes
one slot of one byte; an index that names no cell takes the fault before any write. -/
theorem setWritesOneCellOrFaults : Obligations.SetWritesOneCellOrFaults := by
  intro s x a hinv hf
  have hwf : Memory.wf s.config.storeBytes s.cur = true := wf_mem_of_inv hinv s.active
  rw [exec_set hf]
  refine ⟨fun hx => ⟨_, by rw [if_pos hx], ?_, fun idx hidx => ?_, fun k hk => ?_,
    State.mem_setMem_other .., SameControl.setMem ..⟩, fun hx => ?_⟩
  · rw [State.age_setMem_active, getCell_setCell_same hwf, toNat_and_ageMask, ageOperand_toNat]
  · rw [State.age_setMem_active, getCell_setCell_other hwf hidx, State.age]
  · rw [State.cur_setMem_active, read_setCell_other _ _ hk]
  · rw [if_neg (Nat.not_lt.mpr hx), State.raiseFault_of_running hf]
    rfl

/-- Settles O33: GET waits with the age as its response (`exec_get`), and the age is the number
formula of R49 (`toNat_getCell`). -/
theorem getRespondsTheAgeOrFaults : Obligations.GetRespondsTheAgeOrFaults := by
  intro s x hf
  rw [exec_get hf]
  refine ⟨fun hx => ⟨ageResponse (s.age x.toNat), by rw [if_pos hx]; rfl, ?_⟩, fun hx => ?_⟩
  · rw [ageResponse_toNat, State.age, toNat_getCell, byteIndex, bitShift]
  · rw [if_neg (Nat.not_lt.mpr hx), State.raiseFault_of_running hf]
    rfl

/-- `t` is `s` with age 1 at each cell of the current buffer that `pre` names: every other slot, the
other buffer and the control state are those of `s` (R78). -/
def SeedsOnly (pre : List Byte) (s t : State) : Prop :=
  (∀ idx, t.age idx = if ∃ e ∈ pre, e.toNat = idx then 1 else s.age idx) ∧
    t.mem s.active.other = s.mem s.active.other ∧ SameControl s t

/-- Writing the seeded buffer back seeds the listed cells and nothing else. -/
theorem seedsOnly_setMem_seedCells {s : State} {pre : List Byte}
    (hwf : Memory.wf s.config.storeBytes s.cur = true)
    (hpre : ∀ e ∈ pre, e.toNat < s.config.cells) :
    SeedsOnly pre s (s.setMem s.active (seedCells s.config s.cur pre)) := by
  refine ⟨fun idx => ?_, State.mem_setMem_other .., SameControl.setMem ..⟩
  rw [State.age_setMem_active, getCell_seedCells hpre hwf, State.age]

/-- Settles O35: the loop's three endings (`seedPass_terminated`, `seedPass_badEntry`,
`seedPass_unterminated`) all leave the buffer with the cells of `pre` seeded; the two that stop do
so in the state with the fault status set. -/
theorem loadSeedSetsTheListedCells : Obligations.LoadSeedSetsTheListedCells := by
  intro s pre hinv hf hpre
  have hwf : Memory.wf s.config.storeBytes s.cur = true := wf_mem_of_inv hinv s.active
  have hcells : ∀ e ∈ pre, e.toNat < s.config.cells := fun e he => (hpre e he).2
  rw [exec_loadSeed hf]
  refine ⟨fun post hseed => ?terminated, fun e post hseed he hN => ?badEntry,
    fun hseed => ?unterminated⟩
  case terminated =>
    rw [hseed, seedPass_terminated _ hpre, State.finishPass_active_done]
    exact ⟨_, rfl, seedsOnly_setMem_seedCells hwf hcells⟩
  case badEntry =>
    rw [hseed, seedPass_badEntry _ hpre he hN, State.finishPass_stopped hf]
    exact ⟨_, rfl, seedsOnly_setMem_seedCells
      (s := { s with faulted := true, faultCode := 4, faultInfo := entryInfo pre.length e })
      hwf hcells⟩
  case unterminated =>
    rw [hseed, seedPass_unterminated _ hpre, State.finishPass_stopped hf]
    exact ⟨_, rfl, seedsOnly_setMem_seedCells
      (s := { s with faulted := true, faultCode := 5, faultInfo := 0 }) hwf hcells⟩

end Sys2Proof.Machine

/-! PROOFS. The automaton engine: the transition function (R80), the neighbour scan (R79) and ADVANCE
(R81). -/

namespace Sys2Proof.Machine

/-! ### The transition function -/

theorem survives_iff {n : Nat} : survives n = true ↔ n = 2 ∨ n = 3 := by simp [survives]

theorem spawns_iff {n : Nat} : spawns n = true ↔ n = 2 ∨ n = 5 := by simp [spawns]

/-- T of a live cell (R80). -/
theorem transition_live (maxAge : Nat) {v : Nat} (hv : 0 < v) (n : Nat) :
    transition maxAge v n = if n = 2 ∨ n = 3 then min (v + 1) maxAge else 0 := by
  simp only [transition, if_pos hv, survives_iff]

/-- T of a dead cell (R80). -/
theorem transition_dead (maxAge n : Nat) :
    transition maxAge 0 n = if n = 2 ∨ n = 5 then 1 else 0 := by
  simp only [transition, Nat.lt_irrefl, if_false, spawns_iff]

/-- A next age fits the byte it is stored in, since MAX_AGE does. -/
theorem toNat_ofNat_transition (c : Config) (v n : Nat) :
    (BitVec.ofNat 8 (transition c.maxAge v n)).toNat = transition c.maxAge v n := by
  have hle : transition c.maxAge v n ≤ c.maxAge := transition_le (one_le_maxAge c)
  have hlt : c.maxAge < 256 := maxAge_lt c
  rw [BitVec.toNat_ofNat, Nat.mod_eq_of_lt (by omega)]

/-- Settles O36: the rule is the equation of a live cell (`transition_live`) and that of a dead one
(`transition_dead`); the table is their 28 values for MAX_AGE = 3. -/
theorem transitionTableAndRule : Obligations.TransitionTableAndRule := by
  refine ⟨by decide, fun maxAge v n => ⟨fun hv hn => ?survives, fun hv h2 h3 => ?dies,
    fun hv hn => ?spawns, fun hv h2 h5 => ?staysDead⟩⟩
  case survives => rw [transition_live maxAge hv, if_pos hn]
  case dies => rw [transition_live maxAge hv, if_neg (not_or.mpr ⟨h2, h3⟩)]
  case spawns => rw [hv, transition_dead, if_pos hn]
  case staysDead => rw [hv, transition_dead, if_neg (not_or.mpr ⟨h2, h5⟩)]

/-! ### The neighbour scan -/

theorem listsOnlyCells_iff {c : Config} {cell : Nat} :
    listsOnlyCells c cell = true ↔ ∀ e ∈ listedEntries c cell, e.toNat < c.cells := by
  simp [listsOnlyCells]

/-- Settles O37: the two endings of the scan, `liveCount_ok` and `liveCount_error`; the statement
writes out `listedEntries` and `liveNeighbours`. -/
theorem liveCountCountsListedLiveNeighbours : Obligations.LiveCountCountsListedLiveNeighbours :=
  fun c cur _ => ⟨fun h => liveCount_ok c cur (listsOnlyCells_iff.mp h),
    fun _ _ _ hlist hpre hx => liveCount_error c cur hlist hpre hx⟩

/-! ### ADVANCE -/

/-- Buffer `m` holds the next ages of the cells below `k` of `cur`, and what `cur` holds in every
slot from `k` on, padding slots included (R81). -/
structure NextAgesBelow (c : Config) (cur : Memory) (k : Nat) (m : Memory) : Prop where
  next : ∀ x, x < k → (getCell c m x).toNat =
    transition c.maxAge (getCell c cur x).toNat (liveNeighbours c cur x)
  copied : ∀ idx, k ≤ idx → idx < c.storeBytes * c.valuesPerByte →
    getCell c m idx = getCell c cur idx

/-- While the lists name only cells the pass goes on: with the cells below `k` done it is the loop
over the cells from `k` on (R81). -/
theorem advancePass_eq_advanceCells {c : Config} {nxt : Memory} (cur : Memory)
    (hm : Memory.wf c.storeBytes nxt = true) {k : Nat} (hk : k ≤ c.cells)
    (hlist : ∀ x, x < k → listsOnlyCells c x = true) :
    ∃ m, NextAgesBelow c cur k m ∧
      advancePass c cur nxt = advanceCells c cur ((List.range (c.cells - k)).map (k + ·)) m := by
  have hcopy : ∀ x ∈ List.range k,
      getCell c (nxt.fill c.storeBytes cur.read) x = getCell c cur x := fun x hx =>
    getCell_copy cur hm
      ((List.mem_range.mp hx).trans_le (hk.trans (cells_le_slots c)))
  obtain ⟨m, hpass, -, hin, hout⟩ := advanceCells_done (count := liveNeighbours c cur)
    (fun x hx => (List.mem_range.mp hx).trans_le hk) List.nodup_range
    (fun x hx => liveCount_ok c cur (listsOnlyCells_iff.mp (hlist x (List.mem_range.mp hx))))
    (Memory.wf_fill cur.read hm le_rfl) hcopy ((List.range (c.cells - k)).map (k + ·))
  refine ⟨m, ⟨fun x hx => ?_, fun idx hidx hslot => ?_⟩, ?_⟩
  · rw [hin x (List.mem_range.mpr hx), toNat_ofNat_transition]
  · rw [hout idx (by simpa using hidx), getCell_copy cur hm hslot]
  · rw [advancePass, ← hpass, ← List.range_add, Nat.add_sub_cancel' hk]

/-- With only cells listed the pass ends with every cell's next age (R81). -/
theorem advancePass_done {c : Config} {nxt : Memory} (cur : Memory)
    (hm : Memory.wf c.storeBytes nxt = true)
    (hlist : ∀ x, x < c.cells → listsOnlyCells c x = true) :
    ∃ m, NextAgesBelow c cur c.cells m ∧ advancePass c cur nxt = .done m := by
  obtain ⟨m, hages, hpass⟩ := advancePass_eq_advanceCells cur hm le_rfl hlist
  refine ⟨m, hages, ?_⟩
  rw [hpass, Nat.sub_self]
  rfl

/-- At the first malformed entry, in cell `k`, the pass stops with the cells below `k` done (R97,
R98). -/
theorem advancePass_stopped {c : Config} {nxt : Memory} (cur : Memory)
    (hm : Memory.wf c.storeBytes nxt = true) {k : Nat} (hk : k < c.cells)
    (hlist : ∀ x, x < k → listsOnlyCells c x = true) {e : Byte}
    (herr : liveCount c cur k = .error e) :
    ∃ m, NextAgesBelow c cur k m ∧
      advancePass c cur nxt = .stopped m .topologyEntry (entryInfo k e) := by
  obtain ⟨m, hages, hpass⟩ := advancePass_eq_advanceCells cur hm hk.le hlist
  obtain ⟨j, hj⟩ : ∃ j, c.cells - k = j + 1 := ⟨c.cells - k - 1, by omega⟩
  refine ⟨m, hages, ?_⟩
  rw [hpass, hj, List.range_succ_eq_map, List.map_cons, Nat.add_zero, advanceCells, herr]

/-- A pass that ends leaves its buffer written and current. -/
theorem State.finishPass_done (s : State) (b : Buf) (m : Memory) :
    s.finishPass b (.done m) = { s with active := b }.setMem b m := by
  cases b <;> rfl

/-- Settles O38: the pass ends with every cell done (`advancePass_done`), and its buffer becomes
current; or it stops in cell `c` (`advancePass_stopped`), and its buffer keeps the cells below `c`
done while the fault is taken. The old current buffer is the one that is not written. -/
theorem advanceComputesTheNextGeneration : Obligations.AdvanceComputesTheNextGeneration := by
  intro s hinv hf
  have hwf : Memory.wf s.config.storeBytes (s.mem s.active.other) = true :=
    wf_mem_of_inv hinv s.active.other
  have hne : s.active ≠ s.active.other := (Buf.other_ne s.active).symm
  rw [exec_advance hf]
  refine ⟨fun hlist => ?ends, fun c pre x post hc hlist hentries hpre hx => ?stops⟩
  case ends =>
    obtain ⟨m, hages, hpass⟩ := advancePass_done s.cur hwf hlist
    have hage (idx : Nat) : State.age ({ s with active := s.active.other }.setMem s.active.other m)
        idx = getCell s.config m idx :=
      State.age_setMem_active { s with active := s.active.other } m idx
    rw [hpass, State.finishPass_done]
    refine ⟨_, rfl, State.setMem_active .., fun c hc => ?_, fun idx hidx hslot => ?_, ?_,
      SameControl.setMem ..⟩
    · rw [hage]
      exact hages.next c hc
    · rw [hage]
      exact hages.copied idx hidx hslot
    · rw [State.mem_setMem_ne _ hne]
      exact State.mem_ext rfl rfl _
  case stops =>
    obtain ⟨m, hages, hpass⟩ := advancePass_stopped s.cur hwf hc hlist
      (liveCount_error s.config s.cur hentries hpre hx)
    rw [hpass, State.finishPass_stopped hf]
    refine ⟨_, rfl, ?_, fun c' hc' => ?_, fun idx hidx hslot => ?_, SameControl.setMem ..⟩
    · rw [State.mem_setMem_ne _ hne]
      exact State.mem_ext rfl rfl _
    · rw [State.mem_setMem_same]
      exact hages.next c' hc'
    · rw [State.mem_setMem_same]
      exact hages.copied idx hidx hslot

end Sys2Proof.Machine

/-! PROOFS. The Color Mapper: `map` as the palette entry or the fallback (R83, R84), and the fields of
COLOR's response (R85). -/

namespace Sys2Proof.Machine

/-- The low 5 bits of a value are the remainder by 32 (R83). -/
theorem toNat_and_low5 (v : Byte) : (v &&& 0x1F).toNat = v.toNat % 32 :=
  Nat.and_two_pow_sub_one_eq_mod v.toNat 5

/-- The largest red component is 64, so it does not overflow a byte (R83). -/
theorem flameColour_r_toNat (v : Byte) : (flameColour v).r.toNat = v.toNat % 32 * 2 + 2 := by
  have hlow : (v &&& 0x1F).toNat = v.toNat % 32 := toNat_and_low5 v
  change ((v &&& 0x1F) * 2 + 2).toNat = _
  bv_omega

/-- The largest green component is 32, so it does not overflow a byte (R83). -/
theorem flameColour_g_toNat (v : Byte) : (flameColour v).g.toNat = v.toNat % 32 + 1 := by
  have hlow : (v &&& 0x1F).toNat = v.toNat % 32 := toNat_and_low5 v
  change ((v &&& 0x1F) + 1).toNat = _
  bv_omega

theorem mapColour_of_lt {c : Config} {v : Byte} (h : v.toNat < c.palette.length) :
    mapColour c v = c.palette[v.toNat] := by
  simp only [mapColour, List.getElem?_eq_getElem h]

theorem mapColour_of_le {c : Config} {v : Byte} (h : c.palette.length ≤ v.toNat) :
    mapColour c v = flameColour v := by
  simp only [mapColour, List.getElem?_eq_none h]

/-- Settles O40: below P the lookup finds the entry (`mapColour_of_lt`), from P on it finds none
(`mapColour_of_le`) and the components are those of the fallback colour. -/
theorem mapIsPaletteOrFlame : Obligations.MapIsPaletteOrFlame := by
  refine fun c v => ⟨fun h => mapColour_of_lt h, fun h => ?_⟩
  rw [mapColour_of_le h]
  exact ⟨flameColour_r_toNat v, flameColour_g_toNat v, rfl⟩

/-- MAX_AGE < P in a legal configuration (R16). -/
theorem maxAge_lt_palette_length {c : Config} (h : c.wf = true) : c.maxAge < c.palette.length := by
  simp only [Config.wf, Bool.and_eq_true, decide_eq_true_eq] at h
  omega

/-- No age a buffer can hold reaches the fallback, since it is at most MAX_AGE < P (R84). -/
theorem palette_getElem?_getCell {c : Config} (h : c.wf = true) (m : Memory) (idx : Nat) :
    c.palette[(getCell c m idx).toNat]? = some (mapColour c (getCell c m idx)) := by
  have hlt : (getCell c m idx).toNat < c.palette.length :=
    (getCell_le_maxAge c m idx).trans_lt (maxAge_lt_palette_length h)
  rw [mapColour_of_lt hlt, List.getElem?_eq_getElem hlt]

/-- Settles O41: RENDER maps the ages of the current buffer (`exec_render`), and every age of either
buffer indexes a palette entry (`palette_getElem?_getCell`). -/
theorem renderNeverUsesTheFallback : Obligations.RenderNeverUsesTheFallback := by
  refine fun s hwf => ⟨fun b idx => palette_getElem?_getCell hwf (s.mem b) idx, fun hf => ?_⟩
  exact ⟨fun i => mapColour s.config (s.age i), exec_render hf,
    fun i _ => palette_getElem?_getCell hwf s.cur i⟩

/-! ### The fields of COLOR's response -/

@[simp] theorem colourResponse_bits_r (col : Colour) :
    (colourResponse col).extractLsb' 16 8 = col.r := by
  rw [colourResponse, BitVec.extractLsb'_append_eq_of_le (by decide),
    BitVec.extractLsb'_append_eq_of_le (by decide)]
  exact BitVec.extractLsb'_eq_self

@[simp] theorem colourResponse_bits_g (col : Colour) :
    (colourResponse col).extractLsb' 8 8 = col.g := by
  rw [colourResponse, BitVec.extractLsb'_append_eq_of_le (by decide)]
  exact BitVec.extractLsb'_append_eq_right

@[simp] theorem colourResponse_bits_b (col : Colour) :
    (colourResponse col).extractLsb' 0 8 = col.b :=
  BitVec.extractLsb'_append_eq_right

/-- Settles O42: COLOR waits with `{r, g, b}` of map(X) as its one response (`exec_color`), and each
component stands in its own bits of that word. -/
theorem colorRespondsTheMappedColour : Obligations.ColorRespondsTheMappedColour := by
  intro s x hf
  exact ⟨colourResponse (mapColour s.config x), exec_color hf x,
    colourResponse_bits_r _, colourResponse_bits_g _, colourResponse_bits_b _⟩

end Sys2Proof.Machine

/-! PROOFS. The layout of a frame: the start marker, the pixel record of each cell and the flush
(R86 to R89). -/

namespace Sys2Proof.Machine

/-- The header adds BRIGHTNESS5 to 0xE0: the two share no bit (R88). -/
theorem pixelHeader_toNat (c : Config) : (pixelHeader c).toNat = 0xE0 + c.brightness.toNat := by
  have hor : 2 ^ 5 * 7 + c.brightness.toNat = 2 ^ 5 * 7 ||| c.brightness.toNat :=
    Nat.two_pow_add_eq_or_of_lt c.brightness.isLt 7
  have hlow : (c.brightness.setWidth 8).toNat = c.brightness.toNat :=
    BitVec.toNat_setWidth_of_le (by decide)
  rw [pixelHeader, BitVec.toNat_or, hlow]
  exact hor.symm

@[simp] theorem channels_length (o : ChannelOrder) : o.channels.length = 3 := by
  cases o <;> rfl

@[simp] theorem pixelRecord_length (c : Config) (col : Colour) :
    (pixelRecord c col).length = 4 := by
  simp [pixelRecord]

theorem pixelRecord_header (c : Config) (col : Colour) :
    (pixelRecord c col)[0]? = some (pixelHeader c) := rfl

theorem pixelRecord_component (c : Config) (col : Colour) (m : Nat) :
    (pixelRecord c col)[1 + m]? = c.order.channels[m]?.map col.channel := by
  rw [pixelRecord, Nat.add_comm, List.getElem?_cons_succ, List.getElem?_map]

/-- The records of equal length `k` take `k * n` places. -/
theorem length_flatMap_range {α : Type} {f : Nat → List α} {k : Nat}
    (hlen : ∀ i, (f i).length = k) (n : Nat) : ((List.range n).flatMap f).length = k * n := by
  simp [List.length_flatMap, hlen, Nat.mul_comm]

/-- With records of equal length `k`, record `i` begins at place `k * i`. -/
theorem getElem?_flatMap_range {α : Type} {f : Nat → List α} {k : Nat}
    (hlen : ∀ i, (f i).length = k) {n i m : Nat} (hi : i < n) (hm : m < k) :
    ((List.range n).flatMap f)[k * i + m]? = (f i)[m]? := by
  induction n with
  | zero => omega
  | succ n ih =>
    rw [List.range_succ, List.flatMap_append, List.flatMap_singleton]
    obtain hlt | rfl := Nat.lt_succ_iff_lt_or_eq.mp hi
    · have hin : k * i + m < k * n := calc
        k * i + m < k * (i + 1) := by rw [Nat.mul_succ]; omega
        _ ≤ k * n := Nat.mul_le_mul_left k hlt
      rw [List.getElem?_append_left (by rwa [length_flatMap_range hlen]), ih hlt]
    · rw [List.getElem?_append_right (by rw [length_flatMap_range hlen]; omega),
        length_flatMap_range hlen, Nat.add_sub_cancel_left]

section
variable (c : Config) (colourOf : Nat → Colour)

/-- The pixel records of all cells take 4 bytes each (R88). -/
theorem pixelRecords_length :
    ((List.range c.cells).flatMap fun i => pixelRecord c (colourOf i)).length = 4 * c.cells :=
  length_flatMap_range (fun i => pixelRecord_length c (colourOf i)) c.cells

/-- FRAME_BYTES is the number of bytes of a frame (R22, R86). -/
theorem frameBytes_length : (frameBytes c colourOf).length = c.frameBytes := by
  rw [frameBytes, List.length_append, List.length_append, pixelRecords_length,
    List.length_replicate, List.length_replicate, Config.frameBytes, Nat.add_assoc]

theorem frameBytes_start {i : Nat} (hi : i < 4) : (frameBytes c colourOf)[i]? = some 0x00 := by
  rw [frameBytes, List.getElem?_append_left (by simpa using hi), List.getElem?_replicate_of_lt hi]

/-- After the start marker stand the pixel records and the flush. -/
theorem frameBytes_after_start (j : Nat) : (frameBytes c colourOf)[4 + j]? =
    ((List.range c.cells).flatMap (fun i => pixelRecord c (colourOf i)) ++
      List.replicate c.flushBytes 0xFF)[j]? := by
  rw [frameBytes, List.getElem?_append_right (by simp), List.length_replicate,
    Nat.add_sub_cancel_left]

theorem frameBytes_record {i m : Nat} (hi : i < c.cells) (hm : m < 4) :
    (frameBytes c colourOf)[4 + 4 * i + m]? = (pixelRecord c (colourOf i))[m]? := by
  have hin : 4 * i + m < 4 * c.cells := by omega
  rw [Nat.add_assoc, frameBytes_after_start,
    List.getElem?_append_left (by rwa [pixelRecords_length])]
  exact getElem?_flatMap_range (fun i => pixelRecord_length c (colourOf i)) hi hm

theorem frameBytes_flush {j : Nat} (hj : j < c.flushBytes) :
    (frameBytes c colourOf)[4 + 4 * c.cells + j]? = some 0xFF := by
  rw [Nat.add_assoc, frameBytes_after_start,
    List.getElem?_append_right (by rw [pixelRecords_length]; omega), pixelRecords_length,
    Nat.add_sub_cancel_left, List.getElem?_replicate_of_lt hj]

end

/-- Settles O43: each of the three parts of a frame is read by its own lemma (`frameBytes_start`,
`frameBytes_record`, `frameBytes_flush`), and a record is the header and then the components. -/
theorem frameLayout : Obligations.FrameLayout := by
  refine fun c colourOf => ⟨frameBytes_length c colourOf, fun i hi => frameBytes_start c colourOf hi,
    fun i hi => ?header, fun i m hi hm => ?component, fun j hj => frameBytes_flush c colourOf hj⟩
  case header =>
    have hread : (frameBytes c colourOf)[4 + 4 * i]? = (pixelRecord c (colourOf i))[0]? :=
      frameBytes_record c colourOf hi (Nat.succ_pos 3)
    rw [hread, pixelRecord_header, Option.map_some, pixelHeader_toNat]
  case component =>
    rw [Nat.add_assoc (4 + 4 * i), frameBytes_record c colourOf hi (by omega),
      pixelRecord_component]

end Sys2Proof.Machine

/-! PROOFS. The control commands: NOP (R92), and STATUS with the fields of the status word (R41,
R93). -/

namespace Sys2Proof.Machine

/-- Settles O46: NOP's effect is none, so the state discarded under FAULTED = 1 (`exec_of_faulted`)
and the state reached under FAULTED = 0 are the same. -/
theorem nopChangesNothing : Obligations.NopChangesNothing := by
  intro s
  cases hf : s.faulted with
  | true => exact exec_of_faulted hf (by decide)
  | false => rw [exec, execNop, unlessFaulted_of_running hf]

theorem exec_status (s : State) :
    exec .status s = .next (s.startTransfers .status [.response s.statusWord]) := rfl

/-! ### The fields of the status word -/

theorem Buf.bit_getLsbD_zero (b : Buf) : b.bit.getLsbD 0 = decide (b = .b1) := by
  cases b <;> rfl

section
variable (s : State)

theorem State.statusWord_bit_faulted : s.statusWord.getLsbD 0 = s.faulted := by
  rw [State.statusWord, BitVec.getLsbD_append, if_pos Nat.zero_lt_one, BitVec.getLsbD_ofBool]
  exact Bool.true_and _

@[simp] theorem State.statusWord_bits_faultCode :
    s.statusWord.extractLsb' 1 3 = s.faultCode := by
  rw [State.statusWord, BitVec.extractLsb'_append_eq_of_le (by decide)]
  exact BitVec.extractLsb'_append_eq_right

theorem State.statusWord_bit_active :
    s.statusWord.getLsbD 4 = decide (s.active = .b1) := by
  rw [State.statusWord, BitVec.getLsbD_append, if_neg (by decide), BitVec.getLsbD_append,
    if_neg (by decide), BitVec.getLsbD_append, if_pos (by decide)]
  exact Buf.bit_getLsbD_zero s.active

@[simp] theorem State.statusWord_bits_zero : s.statusWord.extractLsb' 5 3 = 0 := by
  rw [State.statusWord, BitVec.extractLsb'_append_eq_of_le (by decide),
    BitVec.extractLsb'_append_eq_of_le (by decide), BitVec.extractLsb'_append_eq_of_le (by decide)]
  exact BitVec.extractLsb'_append_eq_right

@[simp] theorem State.statusWord_bits_faultInfo :
    s.statusWord.extractLsb' 8 16 = s.faultInfo := by
  rw [State.statusWord, BitVec.extractLsb'_append_eq_of_le (by decide),
    BitVec.extractLsb'_append_eq_of_le (by decide), BitVec.extractLsb'_append_eq_of_le (by decide)]
  exact BitVec.extractLsb'_append_eq_left

end

/-- Settles O47: STATUS waits with the status word as its one response (`exec_status`), and each
field stands in its own bits of that word. -/
theorem statusRespondsTheStatusWord : Obligations.StatusRespondsTheStatusWord := by
  intro s
  exact ⟨s.statusWord, exec_status s, s.statusWord_bit_faulted, s.statusWord_bits_faultCode,
    s.statusWord_bit_active, s.statusWord_bits_zero, s.statusWord_bits_faultInfo⟩

end Sys2Proof.Machine

/-! PROOFS. The faulted block (R99): which word it executes, what it discards, and the fault status
it keeps. -/

namespace Sys2Proof

theorem decodeBare_eq_ok_iff {i j : Instr} {w : Word} :
    decodeBare i w = .ok j ↔ (aField w = 0 ∧ xField w = 0) ∧ i = j := by
  unfold decodeBare
  split <;> simp_all

theorem decodeX_eq_ok_iff {i : Byte → Instr} {j : Instr} {w : Word} :
    decodeX i w = .ok j ↔ aField w = 0 ∧ i (xField w) = j := by
  unfold decodeX
  split <;> simp_all

/-- STATUS has one word (R69, R71): no other row's decoder gives STATUS, and its own wants A and X
zero. -/
theorem decode_eq_ok_status_iff {w : Word} : decode w = .ok .status ↔ w = 0x9000 := by
  constructor
  · intro h
    unfold decode at h
    split at h
    case h_10 hop =>
      obtain ⟨⟨ha, hx⟩, -⟩ := decodeBare_eq_ok_iff.mp h
      have hop9 : opField w = 9 := BitVec.eq_of_toNat_eq hop
      exact eq_packWord_iff.mpr ⟨hop9, ha, hx⟩
    all_goals simp [decodeBare_eq_ok_iff, decodeX_eq_ok_iff] at h
  · rintro rfl
    rfl

end Sys2Proof

namespace Sys2Proof.Machine

/-- An idle block takes and runs the host's next word (R47). -/
theorem step_of_word {s : State} {w : Word} {rest : List Word} (hr : s.outside.now.reset = false)
    (hb : s.busy = none) (hc : s.cmds = w :: rest) : step s = runWord w s.tick.takeWord := by
  simp [step, stepBlock, hr, hb, hc]

/-- While FAULTED = 1 a word other than STATUS's is discarded, legal or not. -/
theorem runWord_of_faulted {s : State} (hf : s.faulted = true) {w : Word} (hw : w ≠ 0x9000) :
    runWord w s = .next s := by
  unfold runWord
  split
  next i hd =>
    have hi : i ≠ .status := by
      rintro rfl
      exact hw (decode_eq_ok_status_iff.mp hd)
    exact exec_of_faulted hf hi
  next => rw [State.raiseFault_of_faulted hf]

theorem runWord_status (s : State) :
    runWord 0x9000 s = .next (s.startTransfers .status [.response s.statusWord]) := by
  rw [runWord, decode_eq_ok_status_iff.mpr rfl]
  exact exec_status s

/-- A state has the fault status of another: FAULTED, FAULT_CODE and FAULT_INFO. -/
def State.sameFaultStatus (s t : State) : Prop :=
  t.faulted = s.faulted ∧ t.faultCode = s.faultCode ∧ t.faultInfo = s.faultInfo

/-- Once FAULTED = 1, only a reset changes the fault status (R40, R99): serving a command and STATUS
do not write it, and any other word is discarded. -/
theorem step_keeps_faultStatus {s t : State} (hf : s.faulted = true)
    (hr : s.outside.now.reset = false) (h : step s = .next t) : s.sameFaultStatus t := by
  rcases step_cases h with ⟨hr', -⟩ | ⟨-, ⟨p, -, rfl⟩ | ⟨-, -, rfl⟩ | ⟨w, rest, i, -, -, -, he⟩ |
    ⟨w, rest, e, -, -, -, rfl⟩⟩
  · simp [hr] at hr'
  · simp [State.sameFaultStatus]
  · exact ⟨rfl, rfl, rfl⟩
  · rcases exec_cases he with ⟨-, rfl⟩ | ⟨-, rfl⟩ | ⟨hrun, -⟩
    · exact ⟨rfl, rfl, rfl⟩
    · exact ⟨rfl, rfl, rfl⟩
    · simp [hf] at hrun
  · rw [State.raiseFault_of_faulted (s := s.tick.takeWord) hf]
    exact ⟨rfl, rfl, rfl⟩

/-- Settles O19: a step without reset keeps the fault status (`step_keeps_faultStatus`); an idle
block discards its next word (`runWord_of_faulted`) unless that is the one word of STATUS
(`runWord_status`). -/
theorem faultedBlockDiscardsAllButStatus : Obligations.FaultedBlockDiscardsAllButStatus := by
  intro s hf
  refine ⟨by simp [State.goodEnd, hf], fun hr => ?_, fun w rest hr hb hc => ⟨fun hw => ?_, ?_⟩⟩
  · obtain ⟨t, ht⟩ := step_isNext s
    obtain ⟨hfaulted, hcode, hinfo⟩ := step_keeps_faultStatus hf hr ht
    have htf : t.faulted = true := hfaulted.trans hf
    exact ⟨t, ht, htf, hcode, hinfo, htf⟩
  · rw [step_of_word hr hb hc, runWord_of_faulted (s := s.tick.takeWord) hf hw,
      tick_takeWord_of_cmds hc]
  · rintro rfl
    rw [step_of_word hr hb hc, runWord_status, tick_takeWord_of_cmds hc]
    rfl

end Sys2Proof.Machine

/-! PROOFS. Hazards and runs: a receiver that never accepts (R117), where a run starts, and what an
ended run shows (R120). -/

namespace Sys2Proof.Machine

/-! ### A receiver that never accepts (R117) -/

/-- The receiver of a transfer accepts: the response receiver (R42) or the byte sink (R43). -/
def Pins.accepts (pins : Pins) : Transfer → Bool
  | .response _ => pins.rspAccept
  | .byte _ => pins.txAccept

/-- A command whose next transfer is not accepted waits with its state kept (R108). -/
theorem State.serve_of_not_accepts {pins : Pins} {x : Transfer} (h : pins.accepts x = false)
    (s : State) (i : Instr) (rest : List Transfer) :
    s.serve pins { cmd := i, waiting := x :: rest } = s := by
  cases x with
  | response w => exact if_neg (Bool.not_eq_true _ ▸ h)
  | byte b => exact if_neg (Bool.not_eq_true _ ▸ h)

theorem State.tick_of_steady {s : State} {pins : Pins}
    (ho : s.outside = { script := [], after := pins }) : s.tick = s := by
  rw [State.tick, ho, Outside.later_nil, ← ho]

/-- In a steady outside that does not accept the next transfer, a step changes nothing. -/
theorem step_of_not_accepts {s : State} {i : Instr} {x : Transfer} {rest : List Transfer}
    {pins : Pins} (hb : s.busy = some { cmd := i, waiting := x :: rest })
    (ho : s.outside = { script := [], after := pins }) (hr : pins.reset = false)
    (hx : pins.accepts x = false) : step s = .next s := by
  obtain ⟨t, ht⟩ := step_isNext s
  have hnow : s.outside.now = pins := by rw [ho, Outside.now_nil]
  have hserve : t = s.tick.serve s.outside.now { cmd := i, waiting := x :: rest } :=
    step_of_busy hb (by rw [hnow, hr]) ht
  rw [ht, hserve, hnow, State.tick_of_steady ho, State.serve_of_not_accepts hx]

theorem core_run_of_step_self {s : State} (h : step s = .next s) (n : Nat) :
    Host.Core.run core n s = .next s := by
  induction n with
  | zero => exact core_run_zero s
  | succ n ih => exact (core_run_succ h).trans ih

/-- Settles O11: the state is a fixed point of the step (`step_of_not_accepts`), so every number of
steps stays in it. -/
theorem receiverThatNeverAcceptsHangsTheBlock :
    Obligations.ReceiverThatNeverAcceptsHangsTheBlock := by
  intro s i x rest pins n hb ho hr hx
  refine core_run_of_step_self (step_of_not_accepts hb ho hr ?_) n
  cases x with
  | response w => exact hx
  | byte b => exact hx

/-! ### The start and the end of a run (R120) -/

theorem State.startsRun_iff {s : State} : s.startsRun = true ↔
    s.busy = none ∧ s.active = .b0 ∧ s.faulted = false ∧ s.faultCode = 0 ∧ s.faultInfo = 0 ∧
      s.responses = [] ∧ s.emitted = [] := by
  simp [State.startsRun, and_assoc]

theorem State.ended_iff {s : State} : s.ended = true ↔ s.cmds = [] ∧ s.busy = none := by
  simp [State.ended]

theorem step_of_reset {s : State} (hr : s.outside.now.reset = true) :
    step s = .next s.tick.applyReset := if_pos hr

theorem State.applyReset_startsRun (s : State) : s.applyReset.startsRun = true := by
  simp [State.startsRun_iff]

/-- Settles O50: the step is the reset (`step_of_reset`), which leaves the start of a run
(`applyReset_startsRun`). -/
theorem resetStartsARun : Obligations.ResetStartsARun :=
  ⟨State.startsRun_iff.mpr (by simp), fun s hr =>
    ⟨s.tick.applyReset, step_of_reset hr, s.tick.applyReset_startsRun, rfl, rfl, rfl⟩⟩

/-! ### The cells of an observation (R120) -/

theorem State.getReturns_of_faulted {s : State} (h : s.faulted = true) (i : Nat) :
    s.getReturns i = none := if_pos h

theorem State.getReturns_of_running {s : State} (h : s.faulted = false) (i : Nat) :
    s.getReturns i = some (ageResponse (s.age i)) := if_neg (by simp [h])

theorem State.observe_cells_length (s : State) : s.observe.cells.length = s.config.cells := by
  simp [State.observe]

theorem State.observe_cell (s : State) {i : Nat} (hi : i < s.config.cells) :
    s.observe.cells[i]? = some (s.getReturns i) := by
  simp [State.observe, List.getElem?_range hi]

/-- Settles O48: GET is discarded in a faulted state (`exec_of_faulted`) and responds the cell's age
in a running one (`exec_get`), and `getReturns` makes the same distinction. -/
theorem observationShowsWhatGetReturns : Obligations.ObservationShowsWhatGetReturns := by
  refine fun s => ⟨rfl, rfl, rfl, s.observe_cells_length, fun x hx =>
    ⟨s.getReturns x.toNat, s.observe_cell hx, ?_⟩⟩
  cases hf : s.faulted with
  | true =>
    rw [State.getReturns_of_faulted hf]
    exact ⟨by simp, fun _ => exec_of_faulted hf (by simp), by simp⟩
  | false =>
    rw [State.getReturns_of_running hf]
    refine ⟨by simp, by simp, fun r hr => ?_⟩
    obtain rfl := Option.some.inj hr
    rw [exec_get hf, if_pos hx, State.startTransfers, hf]

/-- Settles O49: an observation reads the store only through `getReturns`, which reads the ages of
the current buffer's cells, and nothing while FAULTED = 1. -/
theorem observationShowsNothingBeyondGet : Obligations.ObservationShowsNothingBeyondGet := by
  intro s s' hsame hage
  have hcell : ∀ i ∈ List.range s.config.cells, s'.getReturns i = s.getReturns i := by
    intro i hi
    cases hf : s.faulted with
    | true =>
      rw [State.getReturns_of_faulted hf, State.getReturns_of_faulted (hsame.faulted.trans hf)]
    | false =>
      rw [State.getReturns_of_running hf, State.getReturns_of_running (hsame.faulted.trans hf),
        hage hf i (List.mem_range.mp hi)]
  simp only [State.observe, State.faultOutput, hsame.responses, hsame.emitted, hsame.faulted,
    hsame.config, List.map_congr_left hcell]

/-! ### What the steps of a run leave as it is -/

/-- The configuration and the output accepted before the run are those of the other state. -/
structure SameRun (s t : State) : Prop where
  config : t.config = s.config
  pastResponses : t.pastResponses = s.pastResponses
  pastEmitted : t.pastEmitted = s.pastEmitted

/-- A command sends nothing in the step that takes its word (R42, R43). -/
structure SendsNothing (s t : State) : Prop extends SameRun s t where
  responses : t.responses = s.responses
  emitted : t.emitted = s.emitted

theorem exec_sendsNothing {i : Instr} {s t : State} (h : exec i s = .next t) :
    SendsNothing s t := by
  rcases exec_cases h with ⟨-, rfl⟩ | ⟨-, rfl⟩ | ⟨-, heff⟩
  · exact ⟨⟨rfl, rfl, rfl⟩, rfl, rfl⟩
  · exact ⟨⟨rfl, rfl, rfl⟩, rfl, rfl⟩
  · cases heff <;> exact ⟨⟨by simp, by simp, by simp⟩, by simp, by simp⟩

/-- Only a reset moves accepted output to the runs before (R110), and nothing changes the
configuration (R116). -/
theorem step_sameRun {s t : State} (hr : s.outside.now.reset = false) (h : step s = .next t) :
    SameRun s t := by
  rcases step_cases h with ⟨hr', -⟩ | ⟨-, ⟨p, -, rfl⟩ | ⟨-, -, rfl⟩ | ⟨w, rest, i, -, -, -, he⟩ |
    ⟨w, rest, e, -, -, -, rfl⟩⟩
  · simp [hr] at hr'
  · exact ⟨by simp, by simp, by simp⟩
  · exact ⟨rfl, rfl, rfl⟩
  · obtain ⟨hconfig, hpastR, hpastE⟩ := (exec_sendsNothing he).toSameRun
    exact ⟨hconfig, hpastR, hpastE⟩
  · exact ⟨by simp, by simp, by simp⟩

theorem RunsTo.sameRun {s t : State} (h : RunsTo s t) : SameRun s t := by
  refine h.keeps ⟨rfl, rfl, rfl⟩ fun u v hr huv hu => ?_
  have hv := step_sameRun hr huv
  exact ⟨hv.config.trans hu.config, hv.pastResponses.trans hu.pastResponses,
    hv.pastEmitted.trans hu.pastEmitted⟩

/-- Settles O51: what earlier runs sent stays as it is (`RunsTo.sameRun`), and the run starts with no
output of its own. -/
theorem observationIsOfTheRunSinceReset : Obligations.ObservationIsOfTheRunSinceReset := by
  rintro s t ⟨hstart, hrun, -⟩
  obtain ⟨-, -, -, -, -, hresponses, hemitted⟩ := State.startsRun_iff.mp hstart
  obtain ⟨hconfig, hpastR, hpastE⟩ := hrun.sameRun
  refine ⟨hconfig, ?_, ?_⟩
  · simp [State.allResponses, State.observe, hpastR, hresponses]
  · simp [State.allEmitted, State.observe, hpastE, hemitted]

/-! ### The output due: what is accepted and what still waits -/

/-- The byte of a transfer on the byte-output port. -/
def Transfer.byte? : Transfer → Option Byte
  | .byte b => some b
  | .response _ => none

/-- The word of a transfer on the response port. -/
def Transfer.response? : Transfer → Option Rsp
  | .response w => some w
  | .byte _ => none

/-- The transfers the command in progress still has to make. -/
def State.owed (s : State) : List Transfer := s.busy.elim [] InProgress.waiting

/-- The bytes of the run that are accepted or wait to be. -/
def State.bytesDue (s : State) : List Byte := s.emitted ++ s.owed.filterMap Transfer.byte?

/-- The responses of the run that are accepted or wait to be. -/
def State.responsesDue (s : State) : List Rsp :=
  s.responses ++ s.owed.filterMap Transfer.response?

@[simp] theorem Transfer.byte?_response (w : Rsp) : (Transfer.response w).byte? = none := rfl
@[simp] theorem Transfer.response?_byte (b : Byte) : (Transfer.byte b).response? = none := rfl

theorem Transfer.filterMap_byte?_map_byte (bs : List Byte) :
    (bs.map Transfer.byte).filterMap Transfer.byte? = bs := by
  rw [List.filterMap_map]
  exact List.filterMap_some

theorem Transfer.filterMap_response?_map_byte (bs : List Byte) :
    (bs.map Transfer.byte).filterMap Transfer.response? = [] := by
  simp

theorem State.owed_of_idle {s : State} (hb : s.busy = none) : s.owed = [] := by
  rw [State.owed, hb, Option.elim_none]

@[simp] theorem State.startTransfers_owed (s : State) (i : Instr) (ts : List Transfer) :
    (s.startTransfers i ts).owed = ts := rfl

theorem State.bytesDue_of_idle {s : State} (hb : s.busy = none) : s.bytesDue = s.emitted := by
  rw [State.bytesDue, State.owed_of_idle hb, List.filterMap_nil, List.append_nil]

theorem State.responsesDue_of_idle {s : State} (hb : s.busy = none) :
    s.responsesDue = s.responses := by
  rw [State.responsesDue, State.owed_of_idle hb, List.filterMap_nil, List.append_nil]

@[simp] theorem State.accepted_owed (s : State) (p : InProgress) (rest : List Transfer) :
    (s.accepted p rest).owed = rest := by
  by_cases hrest : rest = [] <;> simp [State.owed, hrest]

/-- An accepted transfer passes from what waits to what is accepted (R42, R43). -/
theorem State.serve_of_accepts {pins : Pins} {x : Transfer} (h : pins.accepts x = true)
    (s : State) (i : Instr) (rest : List Transfer) :
    (s.serve pins { cmd := i, waiting := x :: rest }).owed = rest ∧
    (s.serve pins { cmd := i, waiting := x :: rest }).emitted =
      s.emitted ++ [x].filterMap Transfer.byte? ∧
    (s.serve pins { cmd := i, waiting := x :: rest }).responses =
      s.responses ++ [x].filterMap Transfer.response? := by
  have howed := s.accepted_owed { cmd := i, waiting := x :: rest } rest
  cases x with
  | response w =>
    have hserve : s.serve pins { cmd := i, waiting := .response w :: rest } =
        { s.accepted { cmd := i, waiting := .response w :: rest } rest with
          responses := s.responses ++ [w] } := if_pos h
    rw [hserve]
    exact ⟨howed, (List.append_nil _).symm, rfl⟩
  | byte b =>
    have hserve : s.serve pins { cmd := i, waiting := .byte b :: rest } =
        { s.accepted { cmd := i, waiting := .byte b :: rest } rest with
          emitted := s.emitted ++ [b] } := if_pos h
    rw [hserve]
    exact ⟨howed, rfl, (List.append_nil _).symm⟩

/-- The same bytes and the same responses are due. -/
structure SameDue (s t : State) : Prop where
  bytes : t.bytesDue = s.bytesDue
  responses : t.responsesDue = s.responsesDue

/-- Serving a command changes no due output: what no longer waits is accepted. -/
theorem State.serve_sameDue {s : State} {p : InProgress} (hb : s.busy = some p) (pins : Pins) :
    SameDue s (s.serve pins p) := by
  obtain ⟨cmd, waiting⟩ := p
  have hwaiting : s.owed = waiting := by rw [State.owed, hb, Option.elim_some]
  cases waiting with
  | nil =>
    have howed : (s.serve pins { cmd := cmd, waiting := [] }).owed = s.owed := hwaiting.symm
    exact ⟨congrArg (s.emitted ++ ·.filterMap Transfer.byte?) howed,
      congrArg (s.responses ++ ·.filterMap Transfer.response?) howed⟩
  | cons x rest =>
    cases hx : pins.accepts x with
    | false =>
      rw [State.serve_of_not_accepts hx]
      exact ⟨rfl, rfl⟩
    | true =>
      obtain ⟨howed, hemitted, hresponses⟩ := State.serve_of_accepts hx s cmd rest
      constructor
      · rw [State.bytesDue, State.bytesDue, howed, hemitted, hwaiting, List.append_assoc,
          ← List.filterMap_append, List.singleton_append]
      · rw [State.responsesDue, State.responsesDue, howed, hresponses, hwaiting,
          List.append_assoc, ← List.filterMap_append, List.singleton_append]

/-- What a taken command owes: nothing, one response (R42), or one frame (R43, R86). -/
theorem exec_owed {i : Instr} {s t : State} (hb : s.busy = none) (h : exec i s = .next t) :
    t.owed = [] ∨ (∃ r, t.owed = [.response r]) ∨
      ∃ colourOf, t.owed = (frameBytes s.config colourOf).map .byte := by
  rcases exec_cases h with ⟨-, rfl⟩ | ⟨-, rfl⟩ | ⟨-, heff⟩
  · exact .inr (.inl ⟨_, rfl⟩)
  · exact .inl (State.owed_of_idle hb)
  · cases heff
    case get | color | status => exact .inr (.inl ⟨_, rfl⟩)
    case render | renderFill => exact .inr (.inr ⟨_, rfl⟩)
    all_goals exact .inl (State.owed_of_idle (by simpa using hb))

/-- The bytes due in a state are whole frames of its configuration (R86). -/
def State.framesDue (s : State) : Prop :=
  ∃ frames : List (Nat → Colour), s.bytesDue = frames.flatMap (frameBytes s.config)

/-- A command taken by an idle port adds no byte, or one whole frame, to those due. -/
theorem exec_framesDue {i : Instr} {s t : State} (hb : s.busy = none) (h : exec i s = .next t)
    (hs : s.framesDue) : t.framesDue := by
  obtain ⟨frames, hframes⟩ := hs
  have hsent := exec_sendsNothing h
  rw [State.bytesDue_of_idle hb] at hframes
  rcases exec_owed hb h with ht | ⟨r, ht⟩ | ⟨colourOf, ht⟩
  · exact ⟨frames, by simp [State.bytesDue, ht, hsent.emitted, hsent.config, hframes]⟩
  · exact ⟨frames, by simp [State.bytesDue, ht, hsent.emitted, hsent.config, hframes]⟩
  · have hbytes : t.owed.filterMap Transfer.byte? = frameBytes s.config colourOf := by
      rw [ht, Transfer.filterMap_byte?_map_byte]
    exact ⟨frames ++ [colourOf], by
      simp [State.bytesDue, hbytes, hsent.emitted, hsent.config, hframes]⟩

theorem step_framesDue {s t : State} (hr : s.outside.now.reset = false) (h : step s = .next t)
    (hs : s.framesDue) : t.framesDue := by
  rcases step_cases h with ⟨hr', -⟩ | ⟨-, ⟨p, hb, rfl⟩ | ⟨-, -, rfl⟩ | ⟨w, rest, i, hb, -, -, he⟩ |
    ⟨w, rest, e, hb, -, -, rfl⟩⟩
  · simp [hr] at hr'
  · obtain ⟨frames, hframes⟩ := hs
    have hdue := (State.serve_sameDue (s := s.tick) hb s.outside.now).bytes
    exact ⟨frames, by rw [hdue, State.serve_config]; exact hframes⟩
  · exact hs
  · exact exec_framesDue (s := s.tick.takeWord) hb he hs
  · obtain ⟨frames, hframes⟩ := hs
    exact ⟨frames, by simpa [State.bytesDue, State.owed] using hframes⟩

/-- Settles O52: every step of the run keeps the bytes due whole frames (`step_framesDue`), and at
its end all of them are accepted. -/
theorem endedRunEmitsWholeFrames : Obligations.EndedRunEmitsWholeFrames := by
  rintro s t ⟨hstart, hrun, hend⟩
  obtain ⟨hidle, -, -, -, -, -, hemitted⟩ := State.startsRun_iff.mp hstart
  have hs : s.framesDue := ⟨[], (State.bytesDue_of_idle hidle).trans hemitted⟩
  obtain ⟨frames, hframes⟩ : t.framesDue := hrun.keeps hs fun _ _ => step_framesDue
  rw [State.bytesDue_of_idle (State.ended_iff.mp hend).2, hrun.sameRun.config] at hframes
  exact ⟨frames, hframes⟩

/-! ### A run of one render command (R90, R91, R120) -/

/-- No word is left to take, no fault is recorded, and `frame` is all the output due. -/
structure SendsOnly (frame : List Byte) (s : State) : Prop where
  cmds : s.cmds = []
  faulted : s.faulted = false
  bytes : s.bytesDue = frame
  responses : s.responsesDue = []

/-- With no word left, a step only serves the command in progress. -/
theorem step_sendsOnly {frame : List Byte} {s t : State} (hr : s.outside.now.reset = false)
    (h : step s = .next t) (hs : SendsOnly frame s) : SendsOnly frame t := by
  obtain ⟨hcmds, hfaulted, hbytes, hresponses⟩ := hs
  rcases step_cases h with ⟨hr', -⟩ | ⟨-, ⟨p, hb, rfl⟩ | ⟨-, -, rfl⟩ | ⟨_, _, _, -, hc, -⟩ |
    ⟨_, _, _, -, hc, -⟩⟩
  · simp [hr] at hr'
  · have hdue := State.serve_sameDue (s := s.tick) hb s.outside.now
    exact ⟨by simpa using hcmds, by simpa using hfaulted, hdue.bytes.trans hbytes,
      hdue.responses.trans hresponses⟩
  · exact ⟨hcmds, hfaulted, hbytes, hresponses⟩
  · simp [hcmds] at hc
  · simp [hcmds] at hc

theorem decode_encode_renderFill (x : Byte) :
    decode (encode (.renderFill x)) = .ok (.renderFill x) := by
  simp [decode, encode, decodeX]

/-- `frame` is the frame a render command sends from a state (R90, R91). -/
def State.rendersAs (s : State) (i : Instr) (frame : List Byte) : Prop :=
  (i = .render ∧ frame = frameBytes s.config (fun c => mapColour s.config (s.age c))) ∨
    ∃ x, i = .renderFill x ∧ frame = frameBytes s.config (fun _ => mapColour s.config x)

/-- A running block runs the word of a render command by starting its frame. -/
theorem runWord_of_rendersAs {s : State} {i : Instr} {frame : List Byte}
    (h : s.rendersAs i frame) (hf : s.faulted = false) :
    runWord (encode i) s = .next (s.startTransfers i (frame.map .byte)) := by
  rcases h with ⟨rfl, rfl⟩ | ⟨x, rfl, rfl⟩
  · exact exec_render hf
  · rw [runWord, decode_encode_renderFill]
    exact exec_renderFill hf x

/-- The first step of a run of one render command takes its word. -/
theorem step_of_rendersAs {s t : State} {i : Instr} {frame : List Byte}
    (hstart : s.startsRun = true) (hc : s.cmds = [encode i]) (h : s.rendersAs i frame)
    (hr : s.outside.now.reset = false) (ht : step s = .next t) : SendsOnly frame t := by
  obtain ⟨hidle, -, hfaulted, -, -, hresponses, hemitted⟩ := State.startsRun_iff.mp hstart
  rw [step_of_word hr hidle hc, runWord_of_rendersAs (s := s.tick.takeWord) h hfaulted,
    Host.Outcome.next.injEq] at ht
  subst ht
  refine ⟨by simp [hc], by simpa using hfaulted, ?_, ?_⟩
  · rw [State.bytesDue, State.startTransfers_owed, Transfer.filterMap_byte?_map_byte]
    simp [hemitted]
  · rw [State.responsesDue, State.startTransfers_owed, Transfer.filterMap_response?_map_byte]
    simp [hresponses]

/-- Settles O53: from its first step on, the run's due output is the frame alone
(`step_of_rendersAs`, `step_sendsOnly`); at its end all of it is accepted. -/
theorem endedRenderRunShowsItsFrame : Obligations.EndedRenderRunShowsItsFrame := by
  rintro s t i frame ⟨hstart, hrun, hend⟩ hc hframe
  obtain ⟨hnoWord, hidle⟩ := State.ended_iff.mp hend
  have hphase : t = s ∨ SendsOnly frame t := by
    refine hrun.keeps (P := fun u => u = s ∨ SendsOnly frame u) (.inl rfl) fun u v hr huv hu => ?_
    rcases hu with rfl | hu
    · exact .inr (step_of_rendersAs hstart hc hframe hr huv)
    · exact .inr (step_sendsOnly hr huv hu)
  rcases hphase with rfl | ⟨-, hfaulted, hbytes, hresponses⟩
  · simp [hc] at hnoWord
  · exact ⟨(State.bytesDue_of_idle hidle).symm.trans hbytes,
      (State.responsesDue_of_idle hidle).symm.trans hresponses, hfaulted⟩

end Sys2Proof.Machine

/-! PROOFS. Decoder and encoder: they are inverse to each other (R66 to R69), which words are legal
(R71), and the rows of the opcode map as the decoder's cases (R69). -/

namespace Sys2Proof

/-- Settles O2: the decoder reads the packed fields back, row by row. -/
theorem decodeOfEncodeIsTheCommand : Obligations.DecodeOfEncodeIsTheCommand := by
  intro i
  cases i with
  | set x a => simp [decode, encode]
  | get x | color x | renderFill x => simp [decode, encode, decodeX]
  | nop | clear | loadSeed | advance | render | status => simp [decode, encode, decodeBare]

/-- Settles O3: at each OP the decoder has checked the fields its command does not carry, so the
command's word packs the three fields of `w` again. -/
theorem encodeOfDecodeIsTheWord : Obligations.EncodeOfDecodeIsTheWord := by
  intro w i h
  unfold decode at h
  split at h
  case h_3 hop =>
    obtain rfl := Except.ok.inj h
    exact (eq_packWord_iff.mpr ⟨BitVec.eq_of_toNat_eq hop, rfl, rfl⟩).symm
  case h_4 hop | h_7 hop | h_9 hop =>
    obtain ⟨ha, rfl⟩ := decodeX_eq_ok_iff.mp h
    exact (eq_packWord_iff.mpr ⟨BitVec.eq_of_toNat_eq hop, ha, rfl⟩).symm
  case h_1 hop | h_2 hop | h_5 hop | h_6 hop | h_8 hop | h_10 hop =>
    obtain ⟨⟨ha, hx⟩, rfl⟩ := decodeBare_eq_ok_iff.mp h
    exact (eq_packWord_iff.mpr ⟨BitVec.eq_of_toNat_eq hop, ha, hx⟩).symm
  case h_11 => cases h

/-- Each command has one word (R69, R71). -/
theorem decode_eq_ok_iff {w : Word} {i : Instr} : decode w = .ok i ↔ w = encode i :=
  ⟨fun h => (encodeOfDecodeIsTheWord w i h).symm, fun h => h ▸ decodeOfEncodeIsTheCommand i⟩

/-- Settles O1: the legal words are the encodings of their commands (`decode_eq_ok_iff`); the four
illegal ones are evaluated. -/
theorem opcodeMapWordsDecode : Obligations.OpcodeMapWordsDecode := by
  simp only [Obligations.OpcodeMapWordsDecode, decode_eq_ok_iff]
  decide

/-! ### Which words are legal (R71) -/

/-- Bits 11:0 are the fields A and X (R67). -/
theorem toNat_mod_4096_eq_zero_iff {w : Word} :
    w.toNat % 4096 = 0 ↔ aField w = 0 ∧ xField w = 0 := by
  have ha : (aField w).toNat = w.toNat / 2 ^ 8 % 2 ^ 4 := by
    rw [aField, BitVec.extractLsb'_toNat, Nat.shiftRight_eq_div_pow]
  have hx : (xField w).toNat = w.toNat % 2 ^ 8 := by
    rw [xField, BitVec.extractLsb'_toNat, Nat.shiftRight_zero]
  simp only [← BitVec.toNat_inj, ha, hx, BitVec.ofNat_eq_ofNat, BitVec.toNat_ofNat, Nat.zero_mod]
  omega

/-- Settles O4: at each OP the decoder answers a command exactly when the fields its row has no
operand for are zero. -/
theorem legalWordsByOpcode : Obligations.LegalWordsByOpcode := by
  intro w
  rw [toNat_mod_4096_eq_zero_iff]
  unfold decode
  split
  case h_3 hop => simp [hop]
  case h_4 hop | h_7 hop | h_9 hop => simp [hop, decodeX_eq_ok_iff]
  case h_1 hop | h_2 hop | h_5 hop | h_6 hop | h_8 hop | h_10 hop =>
    simp [hop, decodeBare_eq_ok_iff]
  case h_11 => simp_all

/-! ### The rows of the opcode map (R69) -/

theorem OpcodeRow.bare_opField (m : String) (op : BitVec 4) :
    opField (OpcodeRow.bare m op).matchBits = op := opField_packWord op 0 0

theorem OpcodeRow.withX_opField (m : String) (op : BitVec 4) :
    opField (OpcodeRow.withX m op).matchBits = op := opField_packWord op 0 0

theorem OpcodeRow.withAX_opField (m : String) (op : BitVec 4) :
    opField (OpcodeRow.withAX m op).matchBits = op := opField_packWord op 0 0

/-- A word has the OP field of a row it matches: every mask selects that field. -/
theorem opField_of_accepts (w : Word) :
    ∀ r ∈ opcodeRows, r.accepts w = true → opField w = opField r.matchBits := by
  simp +contextual only [opcodeRows_eq, List.forall_mem_cons, OpcodeRow.bare_accepts,
    OpcodeRow.withX_accepts, OpcodeRow.withAX_accepts, OpcodeRow.bare_opField,
    OpcodeRow.withX_opField, OpcodeRow.withAX_opField]
  simp

/-- Each row has an OP field of its own. -/
theorem opcodeRow_eq_of_opField_eq : ∀ r ∈ opcodeRows, ∀ r' ∈ opcodeRows,
    opField r.matchBits = opField r'.matchBits → r = r' := by decide

/-- Every command's word matches the row of its mnemonic. -/
theorem encode_matches_row (i : Instr) : Laws.OpcodeRow.Statement i := by
  cases i with
  | nop => exact Laws.OpcodeRow.nop
  | clear => exact Laws.OpcodeRow.clear
  | set x a => exact Laws.OpcodeRow.set x a
  | get x => exact Laws.OpcodeRow.get x
  | loadSeed => exact Laws.OpcodeRow.loadSeed
  | advance => exact Laws.OpcodeRow.advance
  | color x => exact Laws.OpcodeRow.color x
  | render => exact Laws.OpcodeRow.render
  | renderFill x => exact Laws.OpcodeRow.renderFill x
  | status => exact Laws.OpcodeRow.status

/-- Settles O5: two rows that accept one word have its OP field (`opField_of_accepts`) and so are
one row; a legal word is its command's word (`decode_eq_ok_iff`, `encode_matches_row`); and a word
that does not decode matches no row (`decode_error_iff_no_row`). -/
theorem legalWordMatchesExactlyItsRow : Obligations.LegalWordMatchesExactlyItsRow := by
  refine ⟨fun w r r' hr hr' h h' => ?_, fun w i hd => ?_, fun w r hr h => ?_⟩
  · exact opcodeRow_eq_of_opField_eq r hr r' hr'
      ((opField_of_accepts w r hr h).symm.trans (opField_of_accepts w r' hr' h'))
  · obtain rfl := decode_eq_ok_iff.mp hd
    obtain ⟨r, hr, hname, haccepts⟩ := encode_matches_row i
    exact ⟨r, hr, haccepts, hname⟩
  · cases hd : decode w with
    | ok i => exact ⟨i, rfl⟩
    | error e =>
      have hno := decode_error_iff_no_row.mp ⟨e, hd⟩ r hr
      simp [h] at hno

end Sys2Proof

/-! PROOFS. The invariant: each shared update of the state keeps it, so each command and each step
does; and the reset state meets it (R36, R95, R109). -/

namespace Sys2Proof.Machine

/-! ### The fault status and the buffers -/

theorem FaultCode.bits_in_table (c : FaultCode) : 1 ≤ c.bits.toNat ∧ c.bits.toNat ≤ 5 := by
  cases c <;> decide

theorem State.faultStatusLegal_raiseFault {s : State} (h : s.faultStatusLegal = true)
    (c : FaultCode) (info : Word) : (s.raiseFault c info).faultStatusLegal = true := by
  cases hf : s.faulted with
  | true => rwa [State.raiseFault_of_faulted hf]
  | false =>
    rw [State.raiseFault_of_running hf]
    simpa [State.faultStatusLegal] using c.bits_in_table

theorem State.inv_raiseFault {s : State} (h : s.inv = true) (c : FaultCode) (info : Word) :
    (s.raiseFault c info).inv = true := by
  obtain ⟨h0, h1, hfault, hbusy⟩ := inv_iff.mp h
  exact inv_iff.mpr ⟨by simpa using h0, by simpa using h1,
    State.faultStatusLegal_raiseFault hfault c info, by simpa using hbusy⟩

theorem State.inv_setMem {s : State} (h : s.inv = true) (b : Buf) {m : Memory}
    (hm : Memory.wf s.config.storeBytes m = true) : (s.setMem b m).inv = true := by
  obtain ⟨h0, h1, hfault, hbusy⟩ := inv_iff.mp h
  cases b
  · exact inv_iff.mpr ⟨hm, h1, hfault, hbusy⟩
  · exact inv_iff.mpr ⟨h0, hm, hfault, hbusy⟩

/-- A pass that keeps its buffer canonical keeps the invariant, wherever it ends (R97). -/
theorem State.inv_finishPass {s : State} (h : s.inv = true) (b : Buf) {p : Pass}
    (hp : Memory.wf s.config.storeBytes p.buffer = true) : (s.finishPass b p).inv = true := by
  cases p with
  | done m =>
    rw [State.finishPass_done]
    exact State.inv_setMem (s := { s with active := b }) h b hp
  | stopped m code info => exact State.inv_raiseFault (State.inv_setMem h b hp) code info

/-! ### The command in progress -/

/-- RENDER waits for bytes, at least one (R43). The rule for RENDER_FILL is the same. -/
theorem InProgress.legal_render_iff {ts : List Transfer} :
    InProgress.legal { cmd := .render, waiting := ts } = true ↔
      ts ≠ [] ∧ ∀ t ∈ ts, ∃ b, t = .byte b := by
  simp only [InProgress.legal, Bool.and_eq_true, List.all_eq_true, Bool.not_eq_true',
    List.isEmpty_eq_false_iff]
  refine and_congr_right fun _ => forall₂_congr fun t _ => ?_
  cases t <;> simp

theorem config_frameBytes_pos (c : Config) : 0 < c.frameBytes := by
  rw [Config.frameBytes]
  omega

/-- The bytes of a frame are legal transfers of a render command (R43). -/
theorem InProgress.legal_frame (c : Config) (colourOf : Nat → Colour) :
    InProgress.legal
      { cmd := .render, waiting := (frameBytes c colourOf).map .byte } = true := by
  have hpos : 0 < ((frameBytes c colourOf).map Transfer.byte).length := by
    rw [List.length_map, frameBytes_length]
    exact config_frameBytes_pos c
  refine InProgress.legal_render_iff.mpr ⟨List.ne_nil_of_length_pos hpos, fun t ht => ?_⟩
  obtain ⟨b, -, rfl⟩ := List.mem_map.mp ht
  exact ⟨b, rfl⟩

/-- What is left of legal transfers after the first is legal (R42, R43). -/
theorem InProgress.legal_tail {i : Instr} {x : Transfer} {rest : List Transfer} (hne : rest ≠ [])
    (h : InProgress.legal { cmd := i, waiting := x :: rest } = true) :
    InProgress.legal { cmd := i, waiting := rest } = true := by
  cases i with
  | render | renderFill v =>
    obtain ⟨-, hall⟩ := InProgress.legal_render_iff.mp h
    exact InProgress.legal_render_iff.mpr ⟨hne, fun t ht => hall t (List.mem_cons_of_mem x ht)⟩
  | get _ | color _ | status =>
    obtain ⟨y, ys, rfl⟩ := List.exists_cons_of_ne_nil hne
    cases x <;> simp [InProgress.legal] at h
  | nop | clear | set _ _ | loadSeed | advance => simp [InProgress.legal] at h

theorem State.inv_startTransfers {s : State} (h : s.inv = true) {i : Instr} {ts : List Transfer}
    (hp : InProgress.legal { cmd := i, waiting := ts } = true) :
    (s.startTransfers i ts).inv = true := by
  obtain ⟨h0, h1, hfault, -⟩ := inv_iff.mp h
  refine inv_iff.mpr ⟨h0, h1, hfault, fun p hbusy => ?_⟩
  obtain rfl := Option.some.inj hbusy
  exact hp

/-- An accepted transfer leaves the command with the others, and the last one completes it. -/
theorem State.serve_busy_of_accepts {pins : Pins} {x : Transfer} (h : pins.accepts x = true)
    (s : State) (i : Instr) (rest : List Transfer) :
    (s.serve pins { cmd := i, waiting := x :: rest }).busy =
      if rest = [] then none else some { cmd := i, waiting := rest } := by
  cases x with
  | response w => exact congrArg State.busy (if_pos h)
  | byte b => exact congrArg State.busy (if_pos h)

/-- A command still in progress after serving waits with all its transfers, or with all but the
first. -/
theorem State.serve_busy_cases {s : State} {p q : InProgress} (hb : s.busy = some p) {pins : Pins}
    (hq : (s.serve pins p).busy = some q) :
    q = p ∨ ∃ x, q.waiting ≠ [] ∧ p = { cmd := q.cmd, waiting := x :: q.waiting } := by
  obtain ⟨i, _ | ⟨x, rest⟩⟩ := p
  · simp [State.serve] at hq
  · cases hx : pins.accepts x with
    | false =>
      rw [State.serve_of_not_accepts hx, hb] at hq
      exact .inl (Option.some.inj hq).symm
    | true =>
      rw [State.serve_busy_of_accepts hx] at hq
      by_cases hrest : rest = []
      · simp [hrest] at hq
      · rw [if_neg hrest] at hq
        obtain rfl := Option.some.inj hq
        exact .inr ⟨x, hrest, rfl⟩

theorem State.inv_serve {s : State} (h : s.inv = true) {p : InProgress} (hb : s.busy = some p)
    (pins : Pins) : (s.serve pins p).inv = true := by
  obtain ⟨h0, h1, hfault, hbusy⟩ := inv_iff.mp h
  refine inv_iff.mpr ⟨by simpa using h0, by simpa using h1,
    by simpa [State.faultStatusLegal] using hfault, fun q hq => ?_⟩
  rcases State.serve_busy_cases hb hq with rfl | ⟨x, hne, rfl⟩
  · exact hbusy _ hb
  · exact InProgress.legal_tail hne (hbusy _ hb)

/-! ### Commands, the reset and the step -/

theorem Effect.keeps_inv {i : Instr} {s t : State} (h : Effect i s t) (hinv : s.inv = true) :
    t.inv = true := by
  have hwf (b : Buf) : Memory.wf s.config.storeBytes (s.mem b) = true := wf_mem_of_inv hinv b
  cases h with
  | nop => exact hinv
  | clear =>
    exact State.inv_setMem (State.inv_setMem hinv .b0 (wf_clearBuffer (hwf .b0))) .b1
      (wf_clearBuffer (hwf .b1))
  | set _ x a hx => exact State.inv_setMem hinv _ (wf_setCell (hwf s.active) hx _)
  | setRange _ x a hx => exact State.inv_raiseFault hinv _ _
  | get _ x hx => exact State.inv_startTransfers hinv rfl
  | getRange _ x hx => exact State.inv_raiseFault hinv _ _
  | loadSeed => exact State.inv_finishPass hinv _ (wf_seedPass (hwf s.active) _)
  | advance => exact State.inv_finishPass hinv _ (wf_advancePass _ (hwf s.active.other))
  | color _ x => exact State.inv_startTransfers hinv rfl
  | render => exact State.inv_startTransfers hinv (InProgress.legal_frame _ _)
  | renderFill _ x => exact State.inv_startTransfers hinv (InProgress.legal_frame _ _)
  | status => exact State.inv_startTransfers hinv rfl

theorem exec_keeps_inv {i : Instr} {s t : State} (h : exec i s = .next t) (hinv : s.inv = true) :
    t.inv = true := by
  rcases exec_cases h with ⟨-, rfl⟩ | ⟨-, rfl⟩ | ⟨-, heff⟩
  · exact State.inv_startTransfers hinv rfl
  · exact hinv
  · exact heff.keeps_inv hinv

/-- A reset gives the invariant whatever the state was: it draws both buffers anew (R109). -/
theorem State.inv_applyReset (s : State) : s.applyReset.inv = true :=
  inv_iff.mpr ⟨wf_drawnBuffer _ _ _, wf_drawnBuffer _ _ _, by simp [State.faultStatusLegal],
    by simp⟩

/-- Settles O26: each kind of step (`step_cases`) is one update of the state that keeps the
invariant; `tick` and `takeWord` write nothing it reads. -/
theorem stepKeepsInvariant : Obligations.StepKeepsInvariant := by
  intro s t hinv h
  rcases step_cases h with ⟨-, rfl⟩ | ⟨-, ⟨p, hb, rfl⟩ | ⟨-, -, rfl⟩ | ⟨w, rest, i, -, -, -, he⟩ |
    ⟨w, rest, e, -, -, -, rfl⟩⟩
  · exact s.tick.inv_applyReset
  · exact State.inv_serve (s := s.tick) hinv hb _
  · exact hinv
  · exact exec_keeps_inv (s := s.tick.takeWord) he hinv
  · exact State.inv_raiseFault (s := s.tick.takeWord) hinv _ _

/-- Settles O27: both buffers are drawn by a reset, FAULTED = 0 and nothing is in progress. -/
theorem resetStateMeetsInvariant : Obligations.ResetStateMeetsInvariant :=
  inv_iff.mpr ⟨by simpa using wf_drawnBuffer Config.reference 0 .b0,
    by simpa using wf_drawnBuffer Config.reference 0 .b1, by simp [State.faultStatusLegal], by simp⟩

end Sys2Proof.Machine

/-! PROOFS. The ports and the step: the word an idle block takes (R47), the transfers of a command
in progress (R42, R43), and what no step takes back or changes (R110, R116). -/

namespace Sys2Proof.Machine

/-! ### Taking a word (R47) -/

/-- The step in which an idle block takes a legal word runs the word's command. -/
theorem step_of_command {s : State} {w : Word} {rest : List Word} {i : Instr}
    (hr : s.outside.now.reset = false) (hb : s.busy = none) (hc : s.cmds = w :: rest)
    (hd : decode w = .ok i) :
    step s = exec i { s with cmds := rest, outside := s.outside.later } := by
  rw [step_of_word hr hb hc, tick_takeWord_of_cmds hc]
  simp only [runWord, hd]

theorem State.withFetchWord_encode (s : State) (i : Instr) :
    s.withFetchWord 16 (encode i).toNat = s.offerWord (encode i) := by
  rw [State.withFetchWord, Nat.mod_eq_of_lt (encode i).isLt, BitVec.ofNat_toNat,
    BitVec.setWidth_eq]

/-- Settles O8: the step is `step_of_command`; `withFetchWord` offers the word of a command to an
idle port with reset low, and that word decodes to the command. -/
theorem stepRunsTheDecodedCommand : Obligations.StepRunsTheDecodedCommand := by
  refine ⟨fun s w rest i hr hb hc hd => step_of_command hr hb hc hd, fun s i => ?_⟩
  rw [State.withFetchWord_encode]
  exact step_of_command (Outside.holdResetLow_now_reset s.outside) rfl rfl
    (decodeOfEncodeIsTheCommand i)

/-! ### Transfers (R42, R43) -/

theorem step_serves {s : State} {p : InProgress} (hb : s.busy = some p)
    (hr : s.outside.now.reset = false) : step s = .next (s.tick.serve s.outside.now p) := by
  simp [step, stepBlock, hr, hb]

/-- Settles O10: the step serves the command in progress (`step_serves`), and `serve` branches on
whether the receiver accepts. -/
theorem transferWaitsForItsReceiver : Obligations.TransferWaitsForItsReceiver := by
  intro s i rest hr
  refine ⟨fun w hb => ?_, fun b hb => ?_⟩
  · rw [step_serves hb hr]
    rfl
  · rw [step_serves hb hr]
    rfl

/-- Settles O13: the first step takes the word and leaves one response waiting, the second makes
that transfer, the last one (`transferWaitsForItsReceiver`). -/
theorem responseIsDeliveredOnce : Obligations.ResponseIsDeliveredOnce := by
  intro s i r rest pins hb hc ho hr hrsp hexec
  have hnow : s.outside.now = pins := by rw [ho, Outside.now_nil]
  have hlater : s.outside.later = s.outside := by rw [ho, Outside.later_nil]
  have htake : step s = .next
      { s with cmds := rest, busy := some { cmd := i, waiting := [.response r] } } := by
    rw [step_of_command (by rw [hnow, hr]) hb hc (decodeOfEncodeIsTheCommand i), hlater]
    exact hexec
  have hsend : step { s with cmds := rest, busy := some { cmd := i, waiting := [.response r] } } =
      .next { s with cmds := rest, responses := s.responses ++ [r] } := by
    rw [(transferWaitsForItsReceiver { s with
      cmds := rest, busy := some { cmd := i, waiting := [.response r] } } i []
        (by rw [hnow, hr])).1 r rfl]
    simp [hnow, hlater, hrsp, hb]
  rw [core_run_succ htake, core_run_succ hsend, core_run_zero]

/-! ### A frame leaves byte by byte (R90, R91) -/

/-- The state in which `i` is in progress with the bytes `bs` left to emit, and complete when none
is left. -/
def State.emitting (s : State) (i : Instr) (bs : List Byte) : State :=
  { s with busy := if bs = [] then none else some { cmd := i, waiting := bs.map .byte } }

section
variable {s : State} {pins : Pins} (ho : s.outside = { script := [], after := pins })
  (hr : pins.reset = false) (htx : pins.txAccept = true)
include ho hr htx

theorem step_of_emitting (i : Instr) (b : Byte) (bs : List Byte) :
    step (s.emitting i (b :: bs)) =
      .next (State.emitting { s with emitted := s.emitted ++ [b] } i bs) := by
  have hnow : s.outside.now = pins := by rw [ho, Outside.now_nil]
  have hlater : s.outside.later = s.outside := by rw [ho, Outside.later_nil]
  rw [(transferWaitsForItsReceiver (s.emitting i (b :: bs)) i (bs.map .byte)
    (by simp [State.emitting, hnow, hr])).2 b rfl]
  simp [State.emitting, hnow, hlater, htx]

/-- A sink that always accepts takes one byte a step. -/
theorem core_run_of_emitting (i : Instr) {bs : List Byte} {k : Nat} (hk : k ≤ bs.length) :
    Host.Core.run core k (s.emitting i bs) =
      .next (State.emitting { s with emitted := s.emitted ++ bs.take k } i (bs.drop k)) := by
  induction k generalizing s bs with
  | zero => rw [core_run_zero, List.take_zero, List.append_nil, List.drop_zero]
  | succ k ih =>
    obtain ⟨b, bs, rfl⟩ := List.exists_cons_of_length_pos (Nat.zero_lt_of_lt hk)
    rw [core_run_succ (step_of_emitting ho hr htx i b bs),
      ih (s := { s with emitted := s.emitted ++ [b] }) ho (Nat.le_of_succ_le_succ hk),
      List.append_assoc, List.singleton_append, List.take_succ_cons, List.drop_succ_cons]

end

theorem State.rendersAs_length {s : State} {i : Instr} {frame : List Byte}
    (h : s.rendersAs i frame) : frame.length = s.config.frameBytes := by
  rcases h with ⟨-, rfl⟩ | ⟨x, -, rfl⟩
  · exact frameBytes_length _ _
  · exact frameBytes_length _ _

/-- Settles O45: the first step takes the word and starts the frame (`runWord_of_rendersAs`), and
each step after it emits one byte (`core_run_of_emitting`); the frame has FRAME_BYTES bytes. -/
theorem renderEmitsItsWholeFrame : Obligations.RenderEmitsItsWholeFrame := by
  intro s i frame rest pins k hb hf hc ho hr htx hframe hk
  have hlen : frame.length = s.config.frameBytes := State.rendersAs_length hframe
  have hne : frame ≠ [] := List.ne_nil_of_length_pos (hlen ▸ config_frameBytes_pos s.config)
  have hstart : step s = .next (State.emitting { s with cmds := rest } i frame) := by
    rw [step_of_word (by rw [ho]; exact hr) hb hc,
      runWord_of_rendersAs (s := s.tick.takeWord) hframe hf, tick_takeWord_of_cmds hc, ho,
      Outside.later_nil, ← ho, State.emitting, if_neg hne, State.startTransfers]
  have hk' : k ≤ frame.length := hk.trans_eq hlen.symm
  have hdone : frame.drop k = [] ↔ k = 4 + 4 * s.config.cells + ((s.config.cells + 15) / 16 + 1) :=
    calc frame.drop k = [] ↔ frame.length ≤ k := List.drop_eq_nil_iff
      _ ↔ k = frame.length := ⟨fun h => hk'.antisymm h, fun h => h.ge⟩
      _ ↔ k = _ := by rw [hlen]; rfl
  rw [core_run_succ hstart,
    core_run_of_emitting (s := { s with cmds := rest }) ho hr htx i hk']
  simp only [State.emitting, hdone]

/-- Settles O44: with FAULTED = 0 the two commands have their effects (`exec_render`,
`exec_renderFill`), each of which starts its frame. -/
theorem renderCommandsStartTheirFrame : Obligations.RenderCommandsStartTheirFrame :=
  fun _ x hf => ⟨exec_render hf, exec_renderFill hf x⟩

/-! ### What no step takes back or changes (R110, R116) -/

/-- `t` has accepted what `s` has, and at most one transfer more. -/
def State.AcceptsAtMostOne (s t : State) : Prop :=
  ∃ (r : List Rsp) (e : List Byte), t.allResponses = s.allResponses ++ r ∧
    t.allEmitted = s.allEmitted ++ e ∧ r.length + e.length ≤ 1

theorem State.acceptsAtMostOne_of_same {s t : State} (hresponses : t.allResponses = s.allResponses)
    (hemitted : t.allEmitted = s.allEmitted) : s.AcceptsAtMostOne t :=
  ⟨[], [], by simpa using hresponses, by simpa using hemitted, Nat.zero_le 1⟩

theorem SendsNothing.acceptsAtMostOne {s t : State} (h : SendsNothing s t) :
    s.AcceptsAtMostOne t :=
  State.acceptsAtMostOne_of_same
    (by rw [State.allResponses, State.allResponses, h.pastResponses, h.responses])
    (by rw [State.allEmitted, State.allEmitted, h.pastEmitted, h.emitted])

theorem State.serve_acceptsAtMostOne (s : State) (pins : Pins) (p : InProgress) :
    s.AcceptsAtMostOne (s.serve pins p) := by
  obtain ⟨i, _ | ⟨x, rest⟩⟩ := p
  · exact State.acceptsAtMostOne_of_same rfl rfl
  · cases hx : pins.accepts x with
    | false =>
      rw [State.serve_of_not_accepts hx]
      exact State.acceptsAtMostOne_of_same rfl rfl
    | true =>
      obtain ⟨-, hemitted, hresponses⟩ := State.serve_of_accepts hx s i rest
      refine ⟨[x].filterMap Transfer.response?, [x].filterMap Transfer.byte?, ?_, ?_, ?_⟩
      · rw [State.allResponses, hresponses, State.serve_pastResponses, State.allResponses,
          List.append_assoc]
      · rw [State.allEmitted, hemitted, State.serve_pastEmitted, State.allEmitted,
          List.append_assoc]
      · cases x <;> exact Nat.le_refl 1

/-- Settles O12: serving a command accepts at most one transfer, a reset moves all accepted output
to the runs before, and no other step accepts any. -/
theorem acceptedOutputIsNeverTakenBack : Obligations.AcceptedOutputIsNeverTakenBack := by
  intro s t h
  change s.AcceptsAtMostOne t
  rcases step_cases h with ⟨-, rfl⟩ | ⟨-, ⟨p, -, rfl⟩ | ⟨-, -, rfl⟩ | ⟨w, rest, i, -, -, -, he⟩ |
    ⟨w, rest, e, -, -, -, rfl⟩⟩
  · exact State.acceptsAtMostOne_of_same (State.applyReset_allResponses s.tick)
      (State.applyReset_allEmitted s.tick)
  · exact State.serve_acceptsAtMostOne s.tick _ p
  · exact State.acceptsAtMostOne_of_same rfl rfl
  · exact (exec_sendsNothing he).acceptsAtMostOne
  · exact State.acceptsAtMostOne_of_same (by simp [State.allResponses]) (by simp [State.allEmitted])

/-- Settles O14: a reset keeps the configuration, and so does every other step (`step_sameRun`). -/
theorem noStepChangesConfiguration : Obligations.NoStepChangesConfiguration := by
  intro s t h
  cases hr : s.outside.now.reset with
  | true =>
    rw [step_of_reset hr, Host.Outcome.next.injEq] at h
    rw [← h, State.applyReset_config, State.tick_config]
  | false => exact (step_sameRun hr h).config

end Sys2Proof.Machine

/-! PROOFS. Reset and the fault status: what the reset input leaves (R109, R110), the reset state of
the model (R9 to R22), and the first fault (R40). -/

namespace Sys2Proof.Machine

/-- Settles O15: the step is the reset (`step_of_reset`), which draws both buffers anew
(`read_drawnBuffer`). -/
theorem resetInputGivesResetState : Obligations.ResetInputGivesResetState := by
  intro s hr
  refine ⟨s.tick.applyReset, step_of_reset hr, rfl, rfl, rfl, rfl, rfl, rfl, rfl, fun b k hk => ?_⟩
  cases b
  · exact read_drawnBuffer s.config s.draws .b0 hk
  · exact read_drawnBuffer s.config s.draws .b1 hk

/-- Settles O16: the reset writes neither the configuration nor the host's words, and moves the
accepted output of the run to the runs before. -/
theorem resetAbandonsTheCommandInProgress : Obligations.ResetAbandonsTheCommandInProgress :=
  fun s hr => ⟨s.tick.applyReset, step_of_reset hr, rfl, State.applyReset_allResponses s.tick,
    State.applyReset_allEmitted s.tick, rfl, rfl, rfl⟩

/-- The reference configuration is within the parameter bounds, whatever its free values are. -/
theorem wf_reference : Config.reference.wf = true := by
  have hcolours : Config.openExtraColours.val ≤ 252 :=
    Nat.le_of_lt_succ Config.openExtraColours.isLt
  simp [Config.wf, Config.reference, Config.maxAge, Bpv.bits, hcolours]

/-- Settles O17: the fixed parameters are those of the reference configuration, which is legal
(`wf_reference`), and both buffers are drawn (`read_drawnBuffer`). -/
theorem machineResetStateIsTheSpecs : Obligations.MachineResetStateIsTheSpecs := by
  refine ⟨rfl, rfl, rfl, rfl, rfl, rfl, rfl, rfl, rfl, rfl, rfl, rfl, rfl,
    wf_reference, fun b k hk => ?_⟩
  cases b
  · exact read_drawnBuffer Config.reference 0 .b0 hk
  · exact read_drawnBuffer Config.reference 0 .b1 hk

/-- Settles O18: the two cases of `raiseFault`. -/
theorem onlyTheFirstFaultIsRecorded : Obligations.OnlyTheFirstFaultIsRecorded :=
  fun _ c info => ⟨fun hf => State.raiseFault_of_running hf c info,
    fun hf => State.raiseFault_of_faulted hf c info⟩

end Sys2Proof.Machine

/-! PROOFS. The causes of the fault table (R95, R96), and which commands change ACTIVE (R37) and the
store (R54). -/

namespace Sys2Proof.Machine

/-! ### Where a pass stops -/

/-- A scan stops only at a listed entry that names no cell (R79). -/
theorem liveCount_error_entry {c : Config} {cur : Memory} {cell : Nat} {e : Byte}
    (h : liveCount c cur cell = .error e) : e ∈ listedEntries c cell ∧ c.cells ≤ e.toNat := by
  rcases entries_cases c (listedEntries c cell) with hall | ⟨pre, x, post, hlist, hpre, hx⟩
  · rw [liveCount_ok c cur hall] at h
    cases h
  · rw [liveCount_error c cur hlist hpre hx] at h
    obtain rfl := Except.error.inj h
    exact ⟨by simp [hlist], hx⟩

theorem ne_sentinel_of_listed {c : Config} {cell : Nat} {e : Byte}
    (h : e ∈ listedEntries c cell) : e ≠ sentinel := by
  simpa using List.mem_takeWhile_imp h

/-- ADVANCE's loop stops only where the scan of one of its cells does (R81). -/
theorem advanceCells_stopped_cause {c : Config} {cur nxt m : Memory} {cells : List Nat}
    {code : FaultCode} {info : Word} (h : advanceCells c cur cells nxt = .stopped m code info) :
    code = .topologyEntry ∧ ∃ x ∈ cells, ∃ e, liveCount c cur x = .error e ∧
      info = entryInfo x e := by
  induction cells generalizing nxt with
  | nil => cases h
  | cons x cells ih =>
    rw [advanceCells] at h
    cases hcount : liveCount c cur x with
    | error e =>
      rw [hcount] at h
      cases h
      exact ⟨rfl, x, List.mem_cons_self, e, hcount, rfl⟩
    | ok n =>
      rw [hcount] at h
      obtain ⟨hcode, y, hy, he⟩ := ih h
      exact ⟨hcode, y, List.mem_cons_of_mem x hy, he⟩

/-! ### The fault table (R95) -/

/-- The causes of R95 for which a command raises a fault, with its code and information. -/
inductive RaisesFault (c : Config) : Instr → FaultCode → Word → Prop
  | getRange (x : Byte) (h : c.cells ≤ x.toNat) :
      RaisesFault c (.get x) .indexRange (indexInfo x)
  | setRange (x : Byte) (a : BitVec 4) (h : c.cells ≤ x.toNat) :
      RaisesFault c (.set x a) .indexRange (indexInfo x)
  | topologyEntry (cell : Nat) (e : Byte) (hcell : cell < c.cells)
      (hlisted : e ∈ listedEntries c cell) (he : c.cells ≤ e.toNat) :
      RaisesFault c .advance .topologyEntry (entryInfo cell e)
  | seedRange (j : Nat) (e : Byte) (hj : c.seed[j]? = some e) (hne : e ≠ 0)
      (he : c.cells ≤ e.toNat) : RaisesFault c .loadSeed .seedRange (entryInfo j e)
  | seedUnterminated (h : ∀ e ∈ c.seed, e ≠ 0) : RaisesFault c .loadSeed .seedUnterminated 0

theorem raisesFault_of_advancePass {c : Config} {cur nxt m : Memory} {code : FaultCode}
    {info : Word} (h : advancePass c cur nxt = .stopped m code info) :
    RaisesFault c .advance code info := by
  obtain ⟨rfl, x, hx, e, hcount, rfl⟩ := advanceCells_stopped_cause h
  obtain ⟨hlisted, he⟩ := liveCount_error_entry hcount
  exact .topologyEntry x e (List.mem_range.mp hx) hlisted he

theorem raisesFault_of_seedPass {c : Config} {m m' : Memory} {code : FaultCode} {info : Word}
    (h : seedPass c c.seed 0 m = .stopped m' code info) : RaisesFault c .loadSeed code info := by
  rcases seed_cases c c.seed with ⟨pre, rest, hpre, hseed⟩ | ⟨pre, e, rest, hpre, hne, he, hseed⟩ |
    hall
  · rw [hseed, seedPass_terminated c hpre] at h
    cases h
  · rw [hseed, seedPass_badEntry c hpre hne he] at h
    cases h
    exact .seedRange pre.length e (by simp [hseed]) hne he
  · rw [seedPass_unterminated c hall] at h
    cases h
    exact .seedUnterminated fun e he => (hall e he).1

/-- The fault status records this fault and no other. -/
structure State.Records (t : State) (code : FaultCode) (info : Word) : Prop where
  faultCode : t.faultCode = code.bits
  faultInfo : t.faultInfo = info

theorem State.raiseFault_records {s : State} (hf : s.faulted = false) (code : FaultCode)
    (info : Word) : (s.raiseFault code info).Records code info :=
  ⟨State.raiseFault_faultCode hf code info, State.raiseFault_faultInfo hf code info⟩

/-- A pass sets FAULTED only by stopping, and then records its fault (R97). -/
theorem State.finishPass_faulted_cause {s : State} (hf : s.faulted = false) {b : Buf} {p : Pass}
    (h : (s.finishPass b p).faulted = true) :
    ∃ m code info, p = .stopped m code info ∧ (s.finishPass b p).Records code info := by
  cases p with
  | done m => simp [State.finishPass, hf] at h
  | stopped m code info =>
    exact ⟨m, code, info, rfl, State.raiseFault_records (by simpa using hf) code info⟩

/-- A command that sets FAULTED does so for a cause of the table. -/
theorem Effect.raisesFault {i : Instr} {s t : State} (h : Effect i s t) (hf : s.faulted = false)
    (ht : t.faulted = true) : ∃ code info, RaisesFault s.config i code info ∧
      t.Records code info := by
  cases h with
  | getRange _ x hx => exact ⟨_, _, .getRange x hx, State.raiseFault_records hf _ _⟩
  | setRange _ x a hx => exact ⟨_, _, .setRange x a hx, State.raiseFault_records hf _ _⟩
  | advance =>
    obtain ⟨m, code, info, hp, hrec⟩ := State.finishPass_faulted_cause hf ht
    exact ⟨code, info, raisesFault_of_advancePass hp, hrec⟩
  | loadSeed =>
    obtain ⟨m, code, info, hp, hrec⟩ := State.finishPass_faulted_cause hf ht
    exact ⟨code, info, raisesFault_of_seedPass hp, hrec⟩
  | nop | clear | set | get | color | render | renderFill | status => simp [hf] at ht

theorem exec_cmds {i : Instr} {s t : State} (h : exec i s = .next t) : t.cmds = s.cmds := by
  rcases exec_cases h with ⟨-, rfl⟩ | ⟨-, rfl⟩ | ⟨-, heff⟩
  · rfl
  · rfl
  · cases heff <;> simp

/-- Settles O20: only an illegal word and a command (`Effect.raisesFault`) set FAULTED, and the
command's cause is one of the table. -/
theorem faultIsOneOfTheTable : Obligations.FaultIsOneOfTheTable := by
  intro s t h hf ht
  rcases step_cases h with ⟨-, rfl⟩ | ⟨-, ⟨p, -, rfl⟩ | ⟨-, -, rfl⟩ | ⟨w, rest, i, hb, hc, hd, he⟩ |
    ⟨w, rest, e, hb, hc, hd, rfl⟩⟩
  · simp at ht
  · simp [hf] at ht
  · simp [hf] at ht
  · refine ⟨hb, w, rest, hc, by simp [exec_cmds he, hc], .inr ?_⟩
    rcases exec_cases he with ⟨-, rfl⟩ | ⟨hfaulted, -⟩ | ⟨-, heff⟩
    · simp [hf] at ht
    · simp [hf] at hfaulted
    · obtain ⟨code, info, hcause, hcode, hinfo⟩ := heff.raisesFault (s := s.tick.takeWord) hf ht
      cases hcause with
      | getRange x hx => exact .inl ⟨x, .inl hd, hx, hcode, hinfo⟩
      | setRange x a hx => exact .inl ⟨x, .inr ⟨a, hd⟩, hx, hcode, hinfo⟩
      | topologyEntry cell e hcell hlisted hge =>
        exact .inr (.inl ⟨cell, e, hd, hcell, hlisted, ne_sentinel_of_listed hlisted, hge, hcode,
          hinfo⟩)
      | seedRange j e hj hne hge =>
        exact .inr (.inr (.inl ⟨j, e, hd, hj, hne, hge, hcode, hinfo⟩))
      | seedUnterminated hall => exact .inr (.inr (.inr ⟨hd, hall, hcode, hinfo⟩))
  · obtain ⟨hcode, hinfo⟩ := State.raiseFault_records (s := s.tick.takeWord) hf .illegalCommand w
    exact ⟨hb, w, rest, hc, by simp [hc], .inl ⟨⟨e, hd⟩, hcode, hinfo⟩⟩

/-- Settles O21: the pass could stop only at a listed entry >= 255, which is SENTINEL and so ends
the list; the pass that ends inverts ACTIVE. -/
theorem advanceCannotFaultWith255Cells : Obligations.AdvanceCannotFaultWith255Cells := by
  intro s hcells hf
  refine ⟨_, exec_advance hf, ?_⟩
  cases hp : advancePass s.config s.cur (s.mem s.active.other) with
  | done m => simp [State.finishPass_done, hf]
  | stopped m code info =>
    cases raisesFault_of_advancePass hp with
    | topologyEntry cell e hcell hlisted he =>
      have he255 : e = sentinel := BitVec.eq_of_toNat_eq (by
        change e.toNat = 255
        omega)
      exact absurd he255 (ne_sentinel_of_listed hlisted)

/-! ### Who changes ACTIVE and the store (R37, R54) -/

/-- Both buffers and ACTIVE are those of the other state. -/
structure SameStore (s t : State) : Prop where
  b0 : t.b0 = s.b0
  b1 : t.b1 = s.b1
  active : t.active = s.active

theorem SameStore.mem {s t : State} (h : SameStore s t) (b : Buf) : t.mem b = s.mem b :=
  State.mem_ext h.b0 h.b1 b

/-- A step without reset leaves ACTIVE and the store as they are, or runs the command of a word in a
state with FAULTED = 0. -/
theorem step_sameStore_or_effect {s t : State} (hr : s.outside.now.reset = false)
    (h : step s = .next t) : SameStore s t ∨ (s.busy = none ∧ ∃ i rest,
      s.cmds = encode i :: rest ∧ s.faulted = false ∧ Effect i s.tick.takeWord t) := by
  rcases step_cases h with ⟨hr', -⟩ | ⟨-, ⟨p, -, rfl⟩ | ⟨-, -, rfl⟩ | ⟨w, rest, i, hb, hc, hd, he⟩ |
    ⟨w, rest, e, -, -, -, rfl⟩⟩
  · simp [hr] at hr'
  · exact .inl ⟨by simp, by simp, by simp⟩
  · exact .inl ⟨rfl, rfl, rfl⟩
  · rcases exec_cases he with ⟨-, rfl⟩ | ⟨-, rfl⟩ | ⟨hf, heff⟩
    · exact .inl ⟨rfl, rfl, rfl⟩
    · exact .inl ⟨rfl, rfl, rfl⟩
    · obtain rfl := decode_eq_ok_iff.mp hd
      exact .inr ⟨hb, i, rest, hc, hf, heff⟩
  · exact .inl ⟨by simp, by simp, by simp⟩

/-- A pass leaves ACTIVE as it is or makes its buffer current. -/
theorem State.finishPass_active (s : State) (b : Buf) (p : Pass) :
    (s.finishPass b p).active = s.active ∨ (s.finishPass b p).active = b := by
  cases p with
  | done m => exact .inr rfl
  | stopped m code info => exact .inl (by simp [State.finishPass])

/-- A pass writes no other buffer than its own. -/
theorem State.finishPass_mem_ne (s : State) {b b' : Buf} (hne : b' ≠ b) (p : Pass) :
    (s.finishPass b p).mem b' = s.mem b' := by
  cases p with
  | done m =>
    rw [State.finishPass_done, State.mem_setMem_ne _ hne]
    exact State.mem_ext rfl rfl b'
  | stopped m code info =>
    rw [State.finishPass, State.raiseFault_mem, State.mem_setMem_ne _ hne]

theorem State.startTransfers_mem (s : State) (i : Instr) (ts : List Transfer) (b : Buf) :
    (s.startTransfers i ts).mem b = s.mem b := State.mem_ext rfl rfl b

theorem Effect.changes_active {i : Instr} {s t : State} (h : Effect i s t)
    (hne : t.active ≠ s.active) : i = .advance ∧ t.active = s.active.other := by
  cases h with
  | advance => exact ⟨rfl, (State.finishPass_active _ _ _).resolve_left hne⟩
  | loadSeed => exact absurd ((State.finishPass_active s s.active _).elim id id) hne
  | nop | clear | set | setRange | get | getRange | color | render | renderFill | status =>
    simp at hne

theorem Effect.changes_cur {i : Instr} {s t : State} (h : Effect i s t)
    (hne : t.mem s.active ≠ s.mem s.active) :
    i = .clear ∨ i = .loadSeed ∨ ∃ x a, i = .set x a := by
  cases h with
  | clear => exact .inl rfl
  | loadSeed => exact .inr (.inl rfl)
  | set _ x a => exact .inr (.inr ⟨x, a, rfl⟩)
  | advance => exact absurd (State.finishPass_mem_ne s (Buf.other_ne s.active).symm _) hne
  | nop | setRange | get | getRange | color | render | renderFill | status =>
    simp [State.startTransfers_mem] at hne

theorem Effect.changes_other {i : Instr} {s t : State} (h : Effect i s t)
    (hne : t.mem s.active.other ≠ s.mem s.active.other) : i = .clear ∨ i = .advance := by
  cases h with
  | clear => exact .inl rfl
  | advance => exact .inr rfl
  | loadSeed => exact absurd (State.finishPass_mem_ne s (Buf.other_ne s.active) _) hne
  | nop | set | setRange | get | getRange | color | render | renderFill | status =>
    simp [State.startTransfers_mem] at hne

/-- Settles O22: a step that changes ACTIVE runs a command (`step_sameStore_or_effect`), and that is
ADVANCE (`Effect.changes_active`). -/
theorem onlyAdvanceChangesActive : Obligations.OnlyAdvanceChangesActive := by
  intro s t h hr hne
  rcases step_sameStore_or_effect hr h with hsame | ⟨hb, i, rest, hc, hf, heff⟩
  · exact absurd hsame.active hne
  · obtain ⟨rfl, hactive⟩ := heff.changes_active hne
    exact ⟨hb, by rw [hc]; rfl, hf, hactive⟩

/-- Settles O23: a step that changes a buffer runs a command (`step_sameStore_or_effect`), one of
those that write that buffer (`Effect.changes_cur`, `Effect.changes_other`). -/
theorem onlyStoreCommandsChangeTheStore : Obligations.OnlyStoreCommandsChangeTheStore := by
  intro s t h hr
  rcases step_sameStore_or_effect hr h with hsame | ⟨hb, i, rest, hc, -, heff⟩
  · exact ⟨fun hne => absurd (hsame.mem _) hne, fun hne => absurd (hsame.mem _) hne⟩
  · refine ⟨fun hne => ⟨hb, _, rest, hc, ?_⟩, fun hne => ⟨hb, _, rest, hc, ?_⟩⟩
    · rcases heff.changes_cur hne with rfl | rfl | ⟨x, a, rfl⟩
      · exact .inl rfl
      · exact .inr (.inl rfl)
      · exact .inr (.inr (congrArg BitVec.toNat (opField_packWord 2 a x)))
    · rcases heff.changes_other hne with rfl | rfl
      · exact .inl rfl
      · exact .inr rfl

end Sys2Proof.Machine

/-! PROOFS. What running a command again does (R57), the round trip of the packed store (R114), and
ADVANCE on an all-dead buffer (R81). -/

namespace Sys2Proof.Machine

/-! ### A buffer is what its ages are -/

/-- Canonical buffers that hold the same ages in all slots are the same: every bit of a byte lies in
one of its slots (R51). -/
theorem Memory.ext_of_ages {c : Config} {m m' : Memory} (h : Memory.wf c.storeBytes m = true)
    (h' : Memory.wf c.storeBytes m' = true) (hage : ∀ idx, getCell c m idx = getCell c m' idx) :
    m = m' := by
  refine Memory.ext h h' fun k _ => BitVec.eq_of_getLsbD_eq fun i hi => ?_
  have hbits : 0 < c.bpv.bits := by rcases Bpv.bits_cases c.bpv with h | h | h | h <;> omega
  have hslot : i / c.bpv.bits < c.valuesPerByte := by
    rw [Config.valuesPerByte]
    rcases Bpv.bits_cases c.bpv with h | h | h | h <;> rw [h] <;> omega
  have hbit := congrArg (·.getLsbD (i % c.bpv.bits))
    (hage (c.valuesPerByte * k + i / c.bpv.bits))
  simpa [getLsbD_getCell, byteIndex_mul_add c k hslot, bitShift_mul_add c k hslot,
    Nat.mod_lt i hbits, Nat.div_add_mod] using hbit

/-- Writing the same age to a cell again changes nothing (R50). -/
theorem setCell_setCell_same {c : Config} {m : Memory} (hm : Memory.wf c.storeBytes m = true)
    {idx : Nat} (hidx : idx < c.cells) (v : Byte) :
    setCell c (setCell c m idx v) idx v = setCell c m idx v := by
  have hm' : Memory.wf c.storeBytes (setCell c m idx v) = true := wf_setCell hm hidx v
  refine Memory.ext_of_ages (wf_setCell hm' hidx v) hm' fun j => ?_
  by_cases hj : j = idx
  · rw [hj, getCell_setCell_same hm', getCell_setCell_same hm]
  · rw [getCell_setCell_other hm' hj]

/-- Seeding the same cells again changes nothing (R78). -/
theorem seedCells_seedCells {c : Config} {es : List Byte} (hes : ∀ e ∈ es, e.toNat < c.cells)
    {m : Memory} (hm : Memory.wf c.storeBytes m = true) :
    seedCells c (seedCells c m es) es = seedCells c m es := by
  have hm' : Memory.wf c.storeBytes (seedCells c m es) = true := wf_seedCells hes hm
  refine Memory.ext_of_ages (wf_seedCells hes hm') hm' fun j => ?_
  rw [getCell_seedCells hes hm', getCell_seedCells hes hm]
  split <;> rfl

/-! ### The second run of a command (R57) -/

theorem State.setMem_setMem_same (s : State) (b : Buf) (m m' : Memory) :
    (s.setMem b m).setMem b m' = s.setMem b m' := by
  cases b <;> rfl

/-- CLEAR leaves both buffers with no byte listed, and so does its second run. -/
theorem exec_clear_again {s t : State} (hinv : s.inv = true) (hf : s.faulted = false)
    (h : exec .clear s = .next t) : exec .clear t = .next t := by
  have hclear := exec_clear_of_inv hinv hf
  obtain rfl := Host.Outcome.next.inj (hclear.symm.trans h)
  exact exec_clear_of_inv (exec_keeps_inv hclear hinv) hf

theorem exec_set_again {s : State} (hinv : s.inv = true) (hf : s.faulted = false) {x : Byte}
    (hx : x.toNat < s.config.cells) (a : BitVec 4) :
    exec (.set x a) (s.setMem s.active (setCell s.config s.cur x.toNat (ageOperand a))) =
      .next (s.setMem s.active (setCell s.config s.cur x.toNat (ageOperand a))) := by
  have hcur : Memory.wf s.config.storeBytes s.cur = true := wf_mem_of_inv hinv s.active
  have hsame := setCell_setCell_same hcur hx (ageOperand a)
  rw [exec_set (by simpa using hf), if_pos (by simpa using hx), State.cur_setMem_active,
    State.setMem_config, hsame, State.setMem_active, State.setMem_setMem_same]

/-- LOAD_SEED that ends without a fault has seeded the current buffer, and seeds it the same way
again. -/
theorem exec_loadSeed_again {s t : State} (hinv : s.inv = true) (hf : s.faulted = false)
    (h : exec .loadSeed s = .next t) (ht : t.faulted = false) : exec .loadSeed t = .next t := by
  have hcur : Memory.wf s.config.storeBytes s.cur = true := wf_mem_of_inv hinv s.active
  rw [exec_loadSeed hf, Host.Outcome.next.injEq] at h
  rcases seed_cases s.config s.config.seed with ⟨pre, rest, hpre, hseed⟩ |
    ⟨pre, e, rest, hpre, hne, he, hseed⟩ | hall
  · rw [hseed, seedPass_terminated _ hpre, State.finishPass_active_done] at h
    have hsame := seedCells_seedCells (fun e he => (hpre e he).2) hcur
    subst h
    rw [exec_loadSeed ht, State.setMem_config, hseed, seedPass_terminated _ hpre,
      State.finishPass_active_done, State.cur_setMem_active, hsame, State.setMem_active,
      State.setMem_setMem_same]
  · rw [hseed, seedPass_badEntry _ hpre hne he, State.finishPass_stopped hf] at h
    simp [← h] at ht
  · rw [seedPass_unterminated _ hall, State.finishPass_stopped hf] at h
    simp [← h] at ht

/-- A command other than ADVANCE that ended without a fault gives the same state when it runs
again. -/
theorem Effect.again {i : Instr} {s t : State} (h : Effect i s t) (hi : i ≠ .advance)
    (hinv : s.inv = true) (hf : s.faulted = false) (hst : exec i s = .next t)
    (ht : t.faulted = false) : exec i t = .next t := by
  cases h with
  | nop => exact hst
  | clear => exact exec_clear_again hinv hf hst
  | set _ x a hx => exact exec_set_again hinv hf hx a
  | setRange | getRange => simp at ht
  | get _ x hx => rw [exec_get ht, State.startTransfers_config, if_pos hx]; rfl
  | loadSeed => exact exec_loadSeed_again hinv hf hst ht
  | advance => exact absurd rfl hi
  | color _ x => rw [exec_color ht]; rfl
  | render => rw [exec_render ht]; rfl
  | renderFill _ x => rw [exec_renderFill ht]; rfl
  | status => rfl

/-- Settles O25: STATUS reports the same word again, a discarded command is discarded again, and a
command that ended with a fault is discarded when it runs again; the others have the same effect
(`Effect.again`). -/
theorem repeatedCommandHasNoFurtherEffect : Obligations.RepeatedCommandHasNoFurtherEffect := by
  intro i s t u hinv hi hst htu
  have hagain : exec i t = .next t := by
    rcases exec_cases hst with ⟨rfl, rfl⟩ | ⟨-, rfl⟩ | ⟨hf, heff⟩
    · rfl
    · exact hst
    · cases ht : t.faulted with
      | false => exact heff.again hi hinv hf hst ht
      | true =>
        by_cases hstatus : i = .status
        · subst hstatus
          cases heff
          rfl
        · exact exec_of_faulted ht hstatus
  rw [hagain, Host.Outcome.next.injEq] at htu
  exact htu.symm

/-! ### The round trip of the packed store (R114) -/

theorem exec_get_cell {s : State} (hf : s.faulted = false) {x : Byte}
    (hx : x.toNat < s.config.cells) : exec (.get x) s = .next
      { s with
        busy := some (InProgress.mk (.get x) [.response (ageResponse (s.age x.toNat))]) } := by
  rw [exec_get hf, if_pos hx]
  rfl

/-- Settles O34: SET writes one cell (`exec_set`) and leaves the ages of the others; GET responds
the age of its cell (`exec_get_cell`). -/
theorem getAfterSetReadsWhatWasWritten : Obligations.GetAfterSetReadsWhatWasWritten := by
  intro s t x y a hinv hf hx hy h
  have hcur : Memory.wf s.config.storeBytes s.cur = true := wf_mem_of_inv hinv s.active
  rw [exec_set hf, if_pos hx, Host.Outcome.next.injEq] at h
  subst h
  refine ⟨_, exec_get_cell (by simpa using hf) (by simpa using hy), fun hxy => ?_, fun hxy => ?_⟩
  · rw [hxy, State.age_setMem_active, getCell_setCell_same hcur, ageResponse_toNat,
      toNat_and_ageMask, ageOperand_toNat]
  · have hne : y.toNat ≠ x.toNat := fun heq => hxy (BitVec.eq_of_toNat_eq heq)
    rw [State.age_setMem_active, getCell_setCell_other hcur hne]
    exact exec_get_cell hf hy

/-! ### ADVANCE on an all-dead buffer (R81) -/

/-- With every cell dead, a list that names only cells lists no live neighbour. -/
theorem liveNeighbours_eq_zero {c : Config} {cur : Memory} {cell : Nat}
    (hlist : listsOnlyCells c cell = true) (hdead : ∀ x, x < c.cells → getCell c cur x = 0) :
    liveNeighbours c cur cell = 0 := by
  refine List.countP_eq_zero.mpr fun e he => ?_
  simp [liveEntry, hdead e.toNat (listsOnlyCells_iff.mp hlist e he)]

/-- Settles O39: T(0, 0) = 0 (`transition_dead`), and every cell's age and live count are 0
(`liveNeighbours_eq_zero`). -/
theorem advanceOfAllDeadStaysDead : Obligations.AdvanceOfAllDeadStaysDead := by
  intro s t hinv hf hlist hdead h
  obtain ⟨t', ht', hactive, hnext, -⟩ := (advanceComputesTheNextGeneration s hinv hf).1 hlist
  rw [ht', Host.Outcome.next.injEq] at h
  subst h
  refine ⟨hactive, fun c hc => BitVec.eq_of_toNat_eq ?_⟩
  rw [hnext c hc, hdead c hc, liveNeighbours_eq_zero (hlist c hc) hdead]
  exact transition_dead s.config.maxAge 0

end Sys2Proof.Machine

/-! PROOFS. Padding slots and the next buffer never reach an output (R38, R81): two states that
agree on all control state and on the ages of the current buffer's cells go on agreeing. -/

namespace Sys2Proof.Machine

/-! ### The state without its store -/

/-- The state with the contents of both buffers left out: what two states with `SameControl`
share. -/
def State.control (s : State) : State := { s with b0 := [], b1 := [] }

theorem sameControl_iff {s t : State} : SameControl s t ↔ t.control = s.control := by
  constructor
  · intro h
    simp only [State.control, h.config, h.active, h.faulted, h.faultCode, h.faultInfo, h.busy,
      h.cmds, h.outside, h.responses, h.emitted, h.pastResponses, h.pastEmitted, h.draws]
  · intro h
    simp only [State.control, State.mk.injEq, true_and] at h
    constructor <;> simp only [h]

theorem State.control_setMem (s : State) (b : Buf) (m : Memory) :
    (s.setMem b m).control = s.control := by
  cases b <;> rfl

theorem State.control_raiseFault (s : State) (c : FaultCode) (info : Word) :
    (s.raiseFault c info).control = s.control.raiseFault c info := by
  cases hf : s.faulted with
  | true => rw [State.raiseFault_of_faulted hf, State.raiseFault_of_faulted (s := s.control) hf]
  | false =>
    rw [State.raiseFault_of_running hf, State.raiseFault_of_running (s := s.control) hf]
    rfl

theorem State.control_serve (s : State) (pins : Pins) (p : InProgress) :
    (s.serve pins p).control = s.control.serve pins p := by
  unfold State.serve
  split
  · rfl
  · split <;> rfl
  · split <;> rfl

/-! ### States that agree on what is visible -/

/-- The two states agree on all control state and on the ages of the current buffer's cells. -/
structure SameView (s s' : State) : Prop where
  control : s'.control = s.control
  age : ∀ idx, idx < s.config.cells → s'.age idx = s.age idx

theorem config_eq_of_control {s s' : State} (h : s'.control = s.control) :
    s'.config = s.config := (sameControl_iff.mpr h).config

theorem active_eq_of_control {s s' : State} (h : s'.control = s.control) :
    s'.active = s.active := (sameControl_iff.mpr h).active

/-- An update that reads and writes no buffer, and keeps the configuration and ACTIVE. -/
structure KeepsStore (f : State → State) : Prop where
  control : ∀ s, (f s).control = f s.control
  config : ∀ s, (f s).config = s.config
  age : ∀ s idx, (f s).age idx = s.age idx

theorem SameView.map {f : State → State} {s s' : State} (hf : KeepsStore f) (h : SameView s s') :
    SameView (f s) (f s') := by
  refine ⟨by rw [hf.control, hf.control, h.control], fun idx hidx => ?_⟩
  rw [hf.age, hf.age]
  exact h.age idx (hf.config s ▸ hidx)

theorem keepsStore_tick : KeepsStore State.tick := ⟨fun _ => rfl, fun _ => rfl, fun _ _ => rfl⟩

theorem keepsStore_takeWord : KeepsStore State.takeWord :=
  ⟨fun _ => rfl, fun _ => rfl, fun _ _ => rfl⟩

theorem keepsStore_startTransfers (i : Instr) (ts : List Transfer) :
    KeepsStore fun s => s.startTransfers i ts :=
  ⟨fun _ => rfl, fun _ => rfl, fun _ _ => rfl⟩

theorem keepsStore_raiseFault (c : FaultCode) (info : Word) :
    KeepsStore fun s => s.raiseFault c info :=
  ⟨fun s => s.control_raiseFault c info, fun s => s.raiseFault_config c info,
    fun s idx => by simp [State.age, State.cur]⟩

theorem State.serve_mem (s : State) (pins : Pins) (p : InProgress) (b : Buf) :
    (s.serve pins p).mem b = s.mem b := State.mem_ext (by simp) (by simp) b

theorem keepsStore_serve (pins : Pins) (p : InProgress) : KeepsStore fun s => s.serve pins p :=
  ⟨fun s => s.control_serve pins p, fun s => s.serve_config pins p,
    fun s idx => by simp [State.age, State.cur, State.serve_mem]⟩

/-- Two writes of the current buffer that hold the same ages in its cells. -/
theorem sameView_setMem_active {s s' : State} (h : s'.control = s.control) {m m' : Memory}
    (hage : ∀ idx, idx < s.config.cells → getCell s.config m' idx = getCell s.config m idx) :
    SameView (s.setMem s.active m) (s'.setMem s'.active m') := by
  refine ⟨by rw [State.control_setMem, State.control_setMem, h], fun idx hidx => ?_⟩
  rw [State.age_setMem_active, State.age_setMem_active, config_eq_of_control h]
  exact hage idx (by simpa using hidx)

/-- A write of the next buffer is not visible. -/
theorem State.age_setMem_other (s : State) (m : Memory) (idx : Nat) :
    (s.setMem s.active.other m).age idx = s.age idx := by
  simp [State.age, State.cur, State.mem_setMem_ne _ (Buf.other_ne s.active).symm]

theorem SameView.setMem_other {s s' : State} (h : SameView s s') (m m' : Memory) :
    SameView (s.setMem s.active.other m) (s'.setMem s'.active.other m') := by
  refine ⟨by rw [State.control_setMem, State.control_setMem, h.control], fun idx hidx => ?_⟩
  rw [State.age_setMem_other, State.age_setMem_other]
  exact h.age idx (by simpa using hidx)

/-! ### What the commands read -/

section
variable {c : Config} {cur cur' : Memory}
  (hage : ∀ idx, idx < c.cells → getCell c cur' idx = getCell c cur idx)
include hage

/-- A frame reads the cells of the buffer only (R90). -/
theorem bufferFrame_congr : bufferFrame c cur' = bufferFrame c cur := by
  have hrecords : (List.range c.cells).flatMap
        (fun i => pixelRecord c (mapColour c (getCell c cur' i))) =
      (List.range c.cells).flatMap (fun i => pixelRecord c (mapColour c (getCell c cur i))) :=
    List.flatMap_congr fun i hi => by rw [hage i (List.mem_range.mp hi)]
  rw [bufferFrame, bufferFrame, frameBytes, frameBytes, hrecords]

/-- The scan of a list that names only cells reads the cells only (R79). -/
theorem liveNeighbours_congr {cell : Nat} (hlist : listsOnlyCells c cell = true) :
    liveNeighbours c cur' cell = liveNeighbours c cur cell :=
  List.countP_congr fun e he => by
    rw [liveEntry, liveEntry, hage e.toNat (listsOnlyCells_iff.mp hlist e he)]

theorem getCell_seedCells_congr {es : List Byte} (hes : ∀ e ∈ es, e.toNat < c.cells)
    (hm : Memory.wf c.storeBytes cur = true) (hm' : Memory.wf c.storeBytes cur' = true) {idx : Nat}
    (hidx : idx < c.cells) :
    getCell c (seedCells c cur' es) idx = getCell c (seedCells c cur es) idx := by
  rw [getCell_seedCells hes hm, getCell_seedCells hes hm', hage idx hidx]

theorem getCell_setCell_congr (hm : Memory.wf c.storeBytes cur = true)
    (hm' : Memory.wf c.storeBytes cur' = true) (x : Nat) (v : Byte) {idx : Nat}
    (hidx : idx < c.cells) :
    getCell c (setCell c cur' x v) idx = getCell c (setCell c cur x v) idx := by
  by_cases hx : idx = x
  · rw [hx, getCell_setCell_same hm, getCell_setCell_same hm']
  · rw [getCell_setCell_other hm hx, getCell_setCell_other hm' hx, hage idx hidx]

/-- The next ages depend on the cells only (R80, R81). -/
theorem nextAges_congr (hlist : ∀ x, x < c.cells → listsOnlyCells c x = true) {m m' : Memory}
    (h : NextAgesBelow c cur c.cells m) (h' : NextAgesBelow c cur' c.cells m') {idx : Nat}
    (hidx : idx < c.cells) : getCell c m' idx = getCell c m idx := by
  apply BitVec.eq_of_toNat_eq
  rw [h.next idx hidx, h'.next idx hidx, hage idx hidx, liveNeighbours_congr hage (hlist idx hidx)]

end

/-- Every list names only cells, or there is a first cell whose scan stops at a malformed entry,
whatever the buffer holds. -/
theorem topology_cases (c : Config) : (∀ x, x < c.cells → listsOnlyCells c x = true) ∨
    ∃ k e, k < c.cells ∧ (∀ x, x < k → listsOnlyCells c x = true) ∧
      ∀ cur, liveCount c cur k = .error e := by
  by_cases hbad : ∃ k, k < c.cells ∧ ¬listsOnlyCells c k = true
  · obtain ⟨hk, hlist⟩ := Nat.find_spec hbad
    rw [listsOnlyCells_iff] at hlist
    obtain ⟨pre, e, post, hentries, hpre, he⟩ := (entries_cases c _).resolve_left hlist
    refine .inr ⟨Nat.find hbad, e, hk, fun x hx => ?_,
      fun cur => liveCount_error c cur hentries hpre he⟩
    by_contra hxbad
    exact Nat.find_min hbad hx ⟨hx.trans hk, hxbad⟩
  · push Not at hbad
    exact .inl hbad

/-! ### Commands and steps -/

theorem SameView.config {s s' : State} (h : SameView s s') : s'.config = s.config :=
  config_eq_of_control h.control

/-- The buffers of two states that agree hold the same ages in the cells. -/
theorem SameView.getCell_cur {s s' : State} (h : SameView s s') {idx : Nat}
    (hidx : idx < s.config.cells) :
    getCell s.config s'.cur idx = getCell s.config s.cur idx := by
  have hage := h.age idx hidx
  rwa [State.age, State.age, h.config] at hage

/-- The two answers are next states that agree. -/
def SameViewNext (r r' : Result) : Prop := ∃ t t', r = .next t ∧ r' = .next t' ∧ SameView t t'

theorem SameView.next {t t' : State} (h : SameView t t') : SameViewNext (.next t) (.next t') :=
  ⟨t, t', rfl, rfl, h⟩

section
variable {s s' : State} (h : SameView s s') (hinv : s.inv = true) (hinv' : s'.inv = true)
include h hinv'

theorem wf_mem_of_sameView (b : Buf) : Memory.wf s.config.storeBytes (s'.mem b) = true := by
  rw [← h.config]
  exact wf_mem_of_inv hinv' b

variable (hf : s.faulted = false) (hf' : s'.faulted = false)
include hinv hf hf'

theorem exec_clear_sameView : SameViewNext (exec .clear s) (exec .clear s') := by
  rw [exec_clear_of_inv hinv hf, exec_clear_of_inv hinv' hf']
  have hdead (u : State) (idx : Nat) : State.age { u with b0 := [], b1 := [] } idx = 0 := by
    cases hu : u.active <;> simp [State.age, State.cur, State.mem]
  exact SameView.next ⟨h.control, fun idx _ => (hdead s' idx).trans (hdead s idx).symm⟩

theorem exec_set_sameView (x : Byte) (a : BitVec 4) :
    SameViewNext (exec (.set x a) s) (exec (.set x a) s') := by
  rw [exec_set hf, exec_set hf', h.config]
  by_cases hx : x.toNat < s.config.cells
  · rw [if_pos hx, if_pos hx]
    exact (sameView_setMem_active h.control fun _ hidx => getCell_setCell_congr
      (fun _ => h.getCell_cur) (wf_mem_of_inv hinv _) (wf_mem_of_sameView h hinv' _) _ _ hidx).next
  · rw [if_neg hx, if_neg hx]
    exact (h.map (keepsStore_raiseFault _ _)).next

theorem exec_loadSeed_sameView : SameViewNext (exec .loadSeed s) (exec .loadSeed s') := by
  have hseeds {pre : List Byte} (hpre : ∀ e ∈ pre, e ≠ 0 ∧ e.toNat < s.config.cells) :
      SameView (s.setMem s.active (seedCells s.config s.cur pre))
        (s'.setMem s'.active (seedCells s.config s'.cur pre)) :=
    sameView_setMem_active h.control fun _ hidx => getCell_seedCells_congr
      (fun _ => h.getCell_cur) (fun e he => (hpre e he).2) (wf_mem_of_inv hinv _)
      (wf_mem_of_sameView h hinv' _) hidx
  rw [exec_loadSeed hf, exec_loadSeed hf', h.config]
  rcases seed_cases s.config s.config.seed with ⟨pre, rest, hpre, hseed⟩ |
    ⟨pre, e, rest, hpre, hne, he, hseed⟩ | hall
  · rw [hseed, seedPass_terminated _ hpre, seedPass_terminated _ hpre,
      State.finishPass_active_done, State.finishPass_active_done]
    exact (hseeds hpre).next
  · rw [hseed, seedPass_badEntry _ hpre hne he, seedPass_badEntry _ hpre hne he]
    exact ((hseeds hpre).map (keepsStore_raiseFault _ _)).next
  · rw [seedPass_unterminated _ hall, seedPass_unterminated _ hall]
    exact ((hseeds hall).map (keepsStore_raiseFault _ _)).next

theorem exec_advance_sameView : SameViewNext (exec .advance s) (exec .advance s') := by
  have hwf := wf_mem_of_inv hinv s.active.other
  have hwf' := wf_mem_of_sameView h hinv' s'.active.other
  rw [exec_advance hf, exec_advance hf', h.config]
  rcases topology_cases s.config with hlist | ⟨k, e, hk, hlist, herr⟩
  · obtain ⟨m, hm, hp⟩ := advancePass_done s.cur hwf hlist
    obtain ⟨m', hm', hp'⟩ := advancePass_done s'.cur hwf' hlist
    rw [hp, hp', State.finishPass_done, State.finishPass_done]
    have hcontrol : State.control { s' with active := s'.active.other } =
        State.control { s with active := s.active.other } := by
      rw [active_eq_of_control h.control]
      exact congrArg (fun u : State => { u with active := s.active.other }) h.control
    exact (sameView_setMem_active hcontrol fun _ hidx =>
      nextAges_congr (fun _ => h.getCell_cur) hlist hm hm' hidx).next
  · obtain ⟨m, -, hp⟩ := advancePass_stopped s.cur hwf hk hlist (herr s.cur)
    obtain ⟨m', -, hp'⟩ := advancePass_stopped s'.cur hwf' hk hlist (herr s'.cur)
    rw [hp, hp']
    exact ((h.setMem_other m m').map (keepsStore_raiseFault _ _)).next

end

/-- The status word shows nothing of the store. -/
theorem State.statusWord_control (s : State) : s.control.statusWord = s.statusWord := rfl

/-- A command reads of the store only the cells of the current buffer. -/
theorem exec_sameView (i : Instr) {s s' : State} (h : SameView s s') (hinv : s.inv = true)
    (hinv' : s'.inv = true) : SameViewNext (exec i s) (exec i s') := by
  have hfaulted : s'.faulted = s.faulted := (sameControl_iff.mpr h.control).faulted
  have hstarts (i : Instr) (ts : List Transfer) :
      SameViewNext (.next (s.startTransfers i ts)) (.next (s'.startTransfers i ts)) :=
    (h.map (keepsStore_startTransfers i ts)).next
  by_cases hi : i = .status
  · rw [hi, exec_status, exec_status, ← s'.statusWord_control, h.control, s.statusWord_control]
    exact hstarts _ _
  cases hf : s.faulted with
  | true =>
    rw [exec_of_faulted hf hi, exec_of_faulted (hfaulted.trans hf) hi]
    exact h.next
  | false =>
    have hf' : s'.faulted = false := hfaulted.trans hf
    cases i with
    | nop =>
      rw [nopChangesNothing, nopChangesNothing]
      exact h.next
    | clear => exact exec_clear_sameView h hinv hinv' hf hf'
    | set x a => exact exec_set_sameView h hinv hinv' hf hf' x a
    | get x =>
      rw [exec_get hf, exec_get hf', h.config]
      by_cases hx : x.toNat < s.config.cells
      · rw [if_pos hx, if_pos hx, h.age _ hx]
        exact hstarts _ _
      · rw [if_neg hx, if_neg hx]
        exact (h.map (keepsStore_raiseFault _ _)).next
    | loadSeed => exact exec_loadSeed_sameView h hinv hinv' hf hf'
    | advance => exact exec_advance_sameView h hinv hinv' hf hf'
    | color x =>
      rw [exec_color hf, exec_color hf', h.config]
      exact hstarts _ _
    | render =>
      rw [exec_render hf, exec_render hf', h.config, bufferFrame_congr fun _ => h.getCell_cur]
      exact hstarts _ _
    | renderFill x =>
      rw [exec_renderFill hf, exec_renderFill hf', h.config]
      exact hstarts _ _
    | status => exact absurd rfl hi

theorem runWord_sameView (w : Word) {s s' : State} (h : SameView s s') (hinv : s.inv = true)
    (hinv' : s'.inv = true) : SameViewNext (runWord w s) (runWord w s') := by
  unfold runWord
  cases decode w with
  | ok i => exact exec_sameView i h hinv hinv'
  | error e => exact (h.map (keepsStore_raiseFault _ w)).next

/-- An idle block with no word to take only uses up the step's outside. -/
theorem step_of_idle {s : State} (hr : s.outside.now.reset = false) (hb : s.busy = none)
    (hc : s.cmds = []) : step s = .next s.tick := by
  simp [step, stepBlock, hr, hb, hc]

theorem step_sameView {s s' : State} (h : SameView s s') (hinv : s.inv = true)
    (hinv' : s'.inv = true) (hr : s.outside.now.reset = false) :
    SameViewNext (step s) (step s') := by
  have hsame := sameControl_iff.mpr h.control
  have hr' : s'.outside.now.reset = false := by rw [hsame.outside, hr]
  have htick : SameView s.tick s'.tick := h.map keepsStore_tick
  cases hb : s.busy with
  | some p =>
    rw [step_serves hb hr, step_serves (hsame.busy.trans hb) hr', hsame.outside]
    exact (htick.map (keepsStore_serve _ p)).next
  | none =>
    have hb' : s'.busy = none := hsame.busy.trans hb
    cases hc : s.cmds with
    | nil =>
      rw [step_of_idle hr hb hc, step_of_idle hr' hb' (hsame.cmds.trans hc)]
      exact htick.next
    | cons w rest =>
      rw [step_of_word hr hb hc, step_of_word hr' hb' (hsame.cmds.trans hc)]
      exact runWord_sameView w (htick.map keepsStore_takeWord) hinv hinv'

/-- Settles O24: a step keeps the agreement of two states (`step_sameView`): of the store, a command
reads only the ages of the current buffer's cells (`exec_sameView`). -/
theorem outputsDependOnCurrentCellsOnly : Obligations.OutputsDependOnCurrentCellsOnly := by
  intro s s' hinv hinv' hsame hr hage
  obtain ⟨t, t', ht, ht', hview⟩ :=
    step_sameView ⟨sameControl_iff.mp hsame, hage⟩ hinv hinv' hr
  exact ⟨t, t', ht, ht', sameControl_iff.mpr hview.control, hview.age⟩

end Sys2Proof.Machine

/-! PROOFS. The assembler: every form of R72 and R73 expands to its command, and its line assembles
to the command's word. -/

namespace Sys2Proof.Machine

/-! ### Operands in and out of range (R72) -/

theorem expandAsm_of_not_wf {c : AsmCmd} (h : c.wf = false) : expandAsm c = none := by
  simp [expandAsm, h]

theorem assembleCmd_of_expand {c : AsmCmd} {i : Instr} (h : expandAsm c = some i) :
    assembleCmd c = .ok (.word (encode i)) := by
  rw [assembleCmd, h]

theorem assembleCmd_of_not_wf {c : AsmCmd} (h : c.wf = false) :
    assembleCmd c = .error .outOfRange := by
  rw [assembleCmd, expandAsm_of_not_wf h]

/-- Every byte is in the range of X. -/
theorem toNat_le_255 (x : Byte) : x.toNat ≤ 255 := Nat.le_of_lt_succ x.isLt

theorem expandAsm_set (x : Byte) (a : BitVec 4) :
    expandAsm (.set x.toNat a.toNat) = some (.set x a) := by
  have ha : a.toNat ≤ 15 := Nat.le_of_lt_succ a.isLt
  simp [expandAsm, AsmCmd.wf, toNat_le_255, ha]

theorem expandAsm_get (x : Byte) : expandAsm (.get x.toNat) = some (.get x) := by
  simp [expandAsm, AsmCmd.wf, toNat_le_255]

theorem expandAsm_color (x : Byte) : expandAsm (.color x.toNat) = some (.color x) := by
  simp [expandAsm, AsmCmd.wf, toNat_le_255]

theorem expandAsm_renderFill (x : Byte) :
    expandAsm (.renderFill x.toNat) = some (.renderFill x) := by
  simp [expandAsm, AsmCmd.wf, toNat_le_255]

theorem expandAsm_seedCell (x : Byte) : expandAsm (.seedCell x.toNat) = some (.set x 1) := by
  simp [expandAsm, AsmCmd.wf, toNat_le_255]

theorem expandAsm_killCell (x : Byte) : expandAsm (.killCell x.toNat) = some (.set x 0) := by
  simp [expandAsm, AsmCmd.wf, toNat_le_255]

/-! ### Lines of text -/

/-- A form with no operand: its mnemonic alone assembles to its word. -/
theorem assembleLine_noOperand {m : List Char} {c : AsmCmd} {i : Instr} (hm : m ≠ [])
    (hplain : m.all isPlain = true) (hform : asmForm m [] = some c)
    (hexpand : expandAsm c = some i) :
    assembleLine m = .ok (.word (encode i)) := by
  rw [assembleLine_mnemonic hm hplain, assembleForm, hform]
  exact assembleCmd_of_expand hexpand

/-- The mnemonic `m` with one operand `x` stands for the command `i x`, whose word is `op` and then
`x`. -/
structure OperandForm (m : List Char) (op : Byte) (c : Nat → AsmCmd) (i : Byte → Instr) :
    Prop where
  expand : ∀ x : Byte, expandAsm (c x.toNat) = some (i x)
  ne_nil : m ≠ [] := by simp
  plain : m.all isPlain = true := by decide
  form : ∀ n, asmForm m [n] = some (c n) := by exact fun _ => rfl
  word : ∀ x : Byte, encode (i x) = op ++ x := by exact fun _ => rfl
  range : ∀ n, 255 < n → (c n).wf = false := by simp [AsmCmd.wf]

section
variable {m ds : List Char} {op : Byte} {c : Nat → AsmCmd} {i : Byte → Instr}
  (hm : OperandForm m op c i)
include hm

theorem OperandForm.reads_line {n : Nat} (hn : parseNumber ds = some n) :
    assembleLine (m ++ ' ' :: ds) = assembleCmd (c n) := by
  rw [assembleLine_one hm.ne_nil hm.plain hn, assembleForm, hm.form]

/-- A line of the form assembles to its word, or is an error for an operand out of range. -/
theorem OperandForm.assembles :
    (∀ x : Byte, parseNumber ds = some x.toNat →
      assembleLine (m ++ ' ' :: ds) = .ok (.word (op ++ x))) ∧
    (∀ n, parseNumber ds = some n → 255 < n →
      assembleLine (m ++ ' ' :: ds) = .error .outOfRange) := by
  refine ⟨fun x hx => ?_, fun n hn hrange => ?_⟩
  · rw [hm.reads_line hx, assembleCmd_of_expand (hm.expand x), hm.word]
  · rw [hm.reads_line hn, assembleCmd_of_not_wf (hm.range n hrange)]

end

/-- A SET line assembles as the SET form of its two numbers. -/
theorem assembleLine_set {ds es : List Char} {n k : Nat} (hn : parseNumber ds = some n)
    (hk : parseNumber es = some k) :
    assembleLine ('S' :: 'E' :: 'T' :: ' ' :: ds ++ ',' :: ' ' :: es) =
      assembleCmd (.set n k) :=
  assembleLine_two (m := ['S', 'E', 'T']) (by simp) (by decide) hn hk

/-- Settles O7: the operand ranges decide whether a form expands; a line is read as its form
(`assembleLine_noOperand`, `OperandForm.assembles`, `assembleLine_set`), and a form assembles to the
word of the command it expands to. -/
theorem assemblerExpandsEveryForm : Obligations.AssemblerExpandsEveryForm := by
  refine ⟨⟨rfl, rfl, rfl, rfl, rfl, rfl⟩, fun x => ⟨expandAsm_seedCell x, expandAsm_killCell x,
    expandAsm_get x, expandAsm_color x, expandAsm_renderFill x⟩, expandAsm_set,
    fun c => expandAsm_of_not_wf, fun m w hmem => ?noOperand, fun m op ds hmem => ?oneOperand,
    fun ds es => ⟨fun x a hx ha => ?set, fun n k hn hk hrange => ?setRange⟩,
    fun line comment => assembleLine_comment comment⟩
  case noOperand =>
    simp only [List.mem_cons, Prod.mk.injEq, List.not_mem_nil, or_false] at hmem
    obtain ⟨rfl, rfl⟩ | ⟨rfl, rfl⟩ | ⟨rfl, rfl⟩ | ⟨rfl, rfl⟩ | ⟨rfl, rfl⟩ | ⟨rfl, rfl⟩ := hmem
    · exact assembleLine_noOperand (i := .nop) (by simp) (by decide) rfl rfl
    · exact assembleLine_noOperand (i := .clear) (by simp) (by decide) rfl rfl
    · exact assembleLine_noOperand (i := .loadSeed) (by simp) (by decide) rfl rfl
    · exact assembleLine_noOperand (i := .advance) (by simp) (by decide) rfl rfl
    · exact assembleLine_noOperand (i := .render) (by simp) (by decide) rfl rfl
    · exact assembleLine_noOperand (i := .status) (by simp) (by decide) rfl rfl
  case oneOperand =>
    simp only [List.mem_cons, Prod.mk.injEq, List.not_mem_nil, or_false] at hmem
    obtain ⟨rfl, rfl⟩ | ⟨rfl, rfl⟩ | ⟨rfl, rfl⟩ | ⟨rfl, rfl⟩ | ⟨rfl, rfl⟩ := hmem
    · exact OperandForm.assembles { expand := expandAsm_get }
    · exact OperandForm.assembles { expand := expandAsm_color }
    · exact OperandForm.assembles { expand := expandAsm_renderFill }
    · exact OperandForm.assembles { expand := expandAsm_seedCell }
    · exact OperandForm.assembles { expand := expandAsm_killCell }
  case set =>
    rw [assembleLine_set hx ha]
    exact assembleCmd_of_expand (expandAsm_set x a)
  case setRange =>
    have hwf : (AsmCmd.set n k).wf = false := by
      simp only [AsmCmd.wf, Bool.and_eq_false_iff, decide_eq_false_iff_not]
      omega
    rw [assembleLine_set hn hk, assembleCmd_of_not_wf hwf]

end Sys2Proof.Machine
